-- ==== Sys2Proof/Word.lean ====
section
/-! DEFINITION. The widths of the block: 32-bit registers and command words, 8-bit cells, 1-bit cells. -/

namespace Sys2Proof

/-- A register or a command word, `XLEN = 32` bits (00_scope.md R5, R8). -/
abbrev Word := BitVec 32

/-- A cell of HOST or PAY: an unsigned value 0 to 255, bit 7 most significant (00_scope.md R8). -/
abbrev Byte := BitVec 8

/-- A cell of BIT: 0 or 1 (30_encoding.md R89 (a)). -/
abbrev Bit := BitVec 1

end Sys2Proof
end

