-- ==== Sys2Proof/Config.lean ====
section
/-! DEFINITION. What an implementation fixes, and the free values: the capacities of the instance that `State.reset`
stands for, and the values the spec leaves open (93_implementation_defined.md U1, U2). -/

namespace Sys2Proof

/-- `HOST_CAP` of the instance `State.reset` stands for: the test instance of 00_scope.md R6.
DESIGN CHOICE (log 1): the parameter is OPEN; the machine reads it from HCAP, so that claims over all states cover every value. -/
def Config.hostCap : Nat := 64

/-- `PAY_CAP` of the instance `State.reset` stands for: the test instance of 00_scope.md R6.
DESIGN CHOICE (log 1): the parameter is OPEN; the machine reads it from PCAP. -/
def Config.payCap : Nat := 8

/-- Free value: what cell `a` of HOST holds after the reset numbered `epoch`, until it is written (10_state.md R37, 93 U1; log 2). -/
opaque Config.hostPowerUp : (epoch a : Nat) → Byte

/-- Free value: what cell `a` of PAY holds after the reset numbered `epoch`, until it is written (10_state.md R37, 93 U1; log 2). -/
opaque Config.payPowerUp : (epoch a : Nat) → Byte

/-- Free value: what cell `a` of BIT holds after the reset numbered `epoch`, until it is written (10_state.md R37, 93 U1; log 2). -/
opaque Config.bitPowerUp : (epoch a : Nat) → Bit

/-- Free value: what a `RegRead(r)`, r other than 1, returns while busy, as the draw numbered `n` (40_sequencer.md R100, 93 U2; log 3). -/
opaque Config.busyWord : (n : Nat) → Word

/-- Free value: what a `BufRead` of HOST or PAY returns while busy, as the draw numbered `n` (40_sequencer.md R102, 93 U2; log 3). -/
opaque Config.busyByte : (n : Nat) → Byte

/-- Free value: what a `BufRead` of BIT returns while busy, as the draw numbered `n` (40_sequencer.md R102, 93 U2; log 3). -/
opaque Config.busyBit : (n : Nat) → Bit

end Sys2Proof
end

