-- ==== Sys2Proof/Syntax.lean ====
section
/-! DEFINITION. The five commands of the ATLSB command set, version 1 (30_encoding.md R83). -/

namespace Sys2Proof

/-- A command. None carries an operand: every operand is implicit in registers and buffers (30_encoding.md R82). -/
inductive Instr where
  /-- PACK: bytes of PAY to bits of BIT, most significant bit first (41_pack_unpack.md R122). -/
  | pack
  /-- UNPACK: bits of BIT to bytes of PAY, a trailing incomplete group dropped (41_pack_unpack.md R126). -/
  | unpack
  /-- INJECT: bits of BIT into bit 0 of the bytes of HOST (42_inject.md R141). -/
  | inject
  /-- EXTRACT: bit 0 of every valid byte of HOST to BIT (43_extract.md R162). -/
  | extract
  /-- EXTRACTL: bit 0 of the first `min(HLEN, LIMIT)` bytes of HOST to BIT (43_extract.md R166). -/
  | extractl
  deriving DecidableEq, Repr

end Sys2Proof
end

