-- ==== Sys2Proof/WellFormed.lean ====
section
/-! DEFINITION. What makes a command and the parameters of an instance well formed. -/

namespace Sys2Proof

/-- Every command is well formed: it has no operand that could be out of range (30_encoding.md R82). -/
def Instr.wellFormed : Instr → Bool
  | .pack => true
  | .unpack => true
  | .inject => true
  | .extract => true
  | .extractl => true

/-- The constraints on the parameters: `1 <= PAY_CAP <= 536870911` and `1 <= HOST_CAP <= BIT_CAP = 8 * PAY_CAP`
(00_scope.md R5). -/
def capacitiesWellFormed (hostCap payCap : Nat) : Bool :=
  decide (1 ≤ payCap) && decide (payCap ≤ 536870911) && decide (1 ≤ hostCap) && decide (hostCap ≤ 8 * payCap)

end Sys2Proof
end

