-- ==== Sys2Proof/Decode.lean ====
section
/-! DEFINITION. Decoding a command word (30_encoding.md R80 to R85), total on all 2^32 words, and the encoder. -/

namespace Sys2Proof

/-- Why a word is no command (30_encoding.md R84). Both reasons raise IllegalCommand. -/
inductive IllegalWord where
  /-- Bits 31:8 are not all zero. -/
  | zeroFieldNonzero
  /-- Bits 31:8 are zero and bits 7:0 are 0x00 or 0x06 to 0xFF. -/
  | opcodeUnassigned
  deriving DecidableEq, Repr

/-- The `opcode` field, bits 7:0 (30_encoding.md R81). -/
def opcodeField (w : Word) : BitVec 8 := w.extractLsb' 0 8

/-- The `zero` field, bits 31:8 (30_encoding.md R81). -/
def zeroField (w : Word) : BitVec 24 := w.extractLsb' 8 24

/-- The command an opcode selects (30_encoding.md R83). -/
def opcodeInstr (op : BitVec 8) : Option Instr :=
  if op = 0x01#8 then some .pack
  else if op = 0x02#8 then some .unpack
  else if op = 0x03#8 then some .inject
  else if op = 0x04#8 then some .extract
  else if op = 0x05#8 then some .extractl
  else none

/-- The decoder: the command a word stands for, or why it is illegal (30_encoding.md R83, R84). -/
def decode (w : Word) : Except IllegalWord Instr :=
  if zeroField w = 0#24 then
    match opcodeInstr (opcodeField w) with
    | some i => .ok i
    | none => .error .opcodeUnassigned
  else .error .zeroFieldNonzero

/-- The opcode of a command (30_encoding.md R83). -/
def opcodeOf : Instr → BitVec 8
  | .pack => 0x01#8
  | .unpack => 0x02#8
  | .inject => 0x03#8
  | .extract => 0x04#8
  | .extractl => 0x05#8

/-- The encoder: the word of a command, the `match` column of 30_encoding.md R83. -/
def encode : Instr → Word
  | .pack => 0x00000001#32
  | .unpack => 0x00000002#32
  | .inject => 0x00000003#32
  | .extract => 0x00000004#32
  | .extractl => 0x00000005#32

/-- The decoder on a word numbered as the opcode table numbers it: one 32-bit word, bit 0 least significant, the bits
above `nbits` zero (30_encoding.md R80). -/
def decodeTableWord (nbits w : Nat) : Option Instr :=
  if nbits ≤ 32 ∧ w < 2 ^ nbits then
    match decode (BitVec.ofNat 32 w) with
    | .ok i => some i
    | .error _ => none
  else none

end Sys2Proof
end

