-- ==== Sys2Proof/Machine/State.lean ====
section
/-! DEFINITION. The state of one block instance (10_state.md R20), the inputs its environment schedules, and the reset
state (R37). -/

namespace Sys2Proof.Machine

/-- A buffer as the cells that have been written since reset: (index, value) pairs, indices strictly rising
(`Memory.wf`). An index that is not listed has no stored value; it reads as the free power-up value (93 U1; log 2, 14).
`Memory 8` is a list of `Host.Cell`. -/
abbrev Memory (w : Nat) := List (Nat × BitVec w)

/-- The three buffer spaces (20_memory.md R50). -/
inductive Space where
  | host
  | pay
  | bit
  deriving DecidableEq, Repr

/-- The host transactions (40_sequencer.md R100 to R103). `BufWrite` has one constructor per space, since its value has
the cell's type (R103). -/
inductive Transaction where
  /-- `RegRead(n)`, R100. -/
  | regRead (n : Nat)
  /-- `RegWrite(n, v)`, R101. -/
  | regWrite (n : Nat) (v : Word)
  /-- `BufRead(S, a)`, R102. -/
  | bufRead (sp : Space) (a : Nat)
  /-- `BufWrite(HOST, a, v)`, R103. -/
  | hostWrite (a : Nat) (v : Byte)
  /-- `BufWrite(PAY, a, v)`, R103. -/
  | payWrite (a : Nat) (v : Byte)
  /-- `BufWrite(BIT, a, v)`, R103. -/
  | bitWrite (a : Nat) (v : Bit)
  deriving DecidableEq, Repr

/-- One entry of the schedule: which agent moves next, and how (00_scope.md R13; log 4). -/
inductive Turn where
  /-- The host takes one transaction. -/
  | host (t : Transaction)
  /-- The sequencer takes one step, if one is enabled (40_sequencer.md R108, R109). -/
  | sequencer
  /-- The host writes `w` to CMD, and a command that starts runs to its finish step with nothing in between: the one
  atomic step that 40_sequencer.md R111 allows (log 6). -/
  | command (w : Word)
  /-- The environment resets the block (70_reset_and_hazards.md R230). -/
  | reset
  /-- A poll of the script line `wait`: `RegRead(1)`, repeated until BUSY is 0 (30_encoding.md R87). `gaps` says how many
  turns the sequencer gets before the second poll, before the third, and so on, zero included; after its end one before
  each (44_host_sequences.md R183; log 7). -/
  | wait (gaps : List Nat)
  /-- The script line `rd STATUS` with the comment `stop if ERR`: `RegRead(1)`, and if bit 2 is 1 the next `n` turns, the
  lines still to come of the pseudo-command it stands in, are not taken (44_host_sequences.md R180 to R182; log 8). -/
  | stopOnError (n : Nat)
  deriving DecidableEq, Repr

/-- What a host read returns: a register, a byte of HOST or PAY, or a bit of BIT (40_sequencer.md R100, R102). -/
inductive Reply where
  | word (v : Word)
  | byte (v : Byte)
  | bit (v : Bit)
  deriving DecidableEq, Repr

/-- The state: the tuple of 10_state.md R20, and four fields of the model's own (`epoch`, `draws`, `schedule`,
`replies`). -/
structure State where
  /-- HOST, written cells (R21). -/
  host : Memory 8
  /-- PAY, written cells (R22). -/
  pay : Memory 8
  /-- BIT, written cells (R23). -/
  bits : Memory 1
  /-- CMD, `x[0]` (R25). -/
  cmd : Word
  /-- STATUS, `x[1]` (R26). -/
  status : Word
  /-- HLEN, `x[2]` (R28). -/
  hlen : Word
  /-- PLEN, `x[3]` (R29). -/
  plen : Word
  /-- BLEN, `x[4]` (R30). -/
  blen : Word
  /-- LIMIT, `x[5]` (R31). -/
  limit : Word
  /-- IDX, `x[6]` (R32). -/
  idx : Word
  /-- HCAP, `x[7]`: the constant `HOST_CAP` (R33). -/
  hcap : Word
  /-- PCAP, `x[8]`: the constant `PAY_CAP` (R33). -/
  pcap : Word
  /-- The latch OP (R35). -/
  op : BitVec 8
  /-- The latch CNT (R35). -/
  cnt : Word
  /-- The model's own: how many resets happened; selects the power-up values of unwritten cells (log 2). -/
  epoch : Nat
  /-- The model's own: how many unspecified values reads have returned; selects the next one (log 3). -/
  draws : Nat
  /-- The model's own: the turns still to come (log 4). -/
  schedule : List Turn
  /-- The model's own: what the host's reads returned, newest first (log 9). -/
  replies : List Reply
  deriving DecidableEq, Repr

/-- Why the machine stops. The spec's own errors (60_exceptions.md R200) are no faults: they are next states. -/
inductive Fault where
  /-- Raised by the sequencer when BUSY is 1 and no step is enabled: OP is no opcode, or IDX is above CNT. The spec
  enables no step there (40_sequencer.md R108, R109), and no run reaches such a state (10_state.md R36 (b)). Safe (log 11). -/
  | noEnabledStep
  /-- Raised by a bit step or a whole command that names a cell at or above its buffer's capacity, a cell that does not
  exist. No run reaches such a state (40_sequencer.md R107). Safe (log 11). -/
  | cellOutsideBuffer
  deriving DecidableEq, Repr

/-- Why an input has no meaning. -/
inductive Refusal where
  /-- Raised by `exec` for a command that has no meaning yet. Safe. (No command of this model.) -/
  | notModelled (mnemonic : String)
  /-- Raised by a host transaction with a register number above 8 or an index at or above the capacity: it "is not
  admitted: the block gives it no meaning, it has no step, and a model refuses it" (40_sequencer.md R104, 93 U3). Safe (log 10). -/
  | notAdmitted
  deriving DecidableEq, Repr

/-- The state right after the reset numbered `epoch` of an instance with the given HCAP and PCAP (10_state.md R37): no
cell of a buffer has a known value, nothing is scheduled. -/
def State.resetOf (hcap pcap : Word) (epoch : Nat) : State where
  host := []
  pay := []
  bits := []
  cmd := 0#32
  status := 0#32
  hlen := 0#32
  plen := 0#32
  blen := 0#32
  limit := 0#32
  idx := 0#32
  hcap := hcap
  pcap := pcap
  op := 0#8
  cnt := 0#32
  epoch := epoch
  draws := 0
  schedule := []
  replies := []

/-- The machine right after reset (10_state.md R37), for the capacities of `Config` (log 1). -/
def State.reset : State :=
  State.resetOf (BitVec.ofNat 32 Config.hostCap) (BitVec.ofNat 32 Config.payCap) 0

end Sys2Proof.Machine
end

