-- ==== Sys2Proof/Machine/Operands.lean ====
section
/-! DEFINITION. The bit primitives (00_scope.md R12), the capacities, and the operands a command samples at issue: its
range predicate and its count of bit steps (30_encoding.md R82; 40_sequencer.md R107). -/

namespace Sys2Proof.Machine

/-- `lsb(h) = h & 1` (00_scope.md R12). -/
def lsb (h : Byte) : Bit := (h &&& 0x01#8).setWidth 1

/-- `setlsb(h, b) = (h & 0xFE) | b` (00_scope.md R12). -/
def setlsb (h : Byte) (b : Bit) : Byte := (h &&& 0xFE#8) ||| b.setWidth 8

/-- `msbbit(h, k) = (h >> (7 - k)) & 1`: the k-th bit of `h` from the most significant (00_scope.md R12). -/
def msbbit (h : Byte) (k : Nat) : Bit := ((h >>> (7 - k)) &&& 0x01#8).setWidth 1

/-- `putbit(h, k, b) = (h & ~(0x80 >> k)) | (b << (7 - k))` (00_scope.md R12). -/
def putbit (h : Byte) (k : Nat) (b : Bit) : Byte :=
  (h &&& ~~~(0x80#8 >>> k)) ||| (b.setWidth 8 <<< (7 - k))

/-- The byte eight bits stand for, the first one most significant:
`b0*128 + b1*64 + b2*32 + b3*16 + b4*8 + b5*4 + b6*2 + b7` (41_pack_unpack.md R121). -/
def byteOfBits (b0 b1 b2 b3 b4 b5 b6 b7 : Bit) : Byte :=
  b0.setWidth 8 * 128#8 + b1.setWidth 8 * 64#8 + b2.setWidth 8 * 32#8 + b3.setWidth 8 * 16#8
    + b4.setWidth 8 * 8#8 + b5.setWidth 8 * 4#8 + b6.setWidth 8 * 2#8 + b7.setWidth 8

/-- `HOST_CAP`, as HCAP holds it (10_state.md R33; log 1). -/
def State.hostCap (s : State) : Nat := s.hcap.toNat

/-- `PAY_CAP`, as PCAP holds it (10_state.md R33; log 1). -/
def State.payCap (s : State) : Nat := s.pcap.toNat

/-- `BIT_CAP = 8 * PAY_CAP` (00_scope.md R5; 10_state.md R33). -/
def State.bitCap (s : State) : Nat := 8 * s.payCap

/-- `inrange(1)`: `PLEN <= PAY_CAP` (40_sequencer.md R107). -/
def inRangePack (s : State) : Bool := decide (s.plen.toNat ≤ s.payCap)

/-- `inrange(2)`: `BLEN <= BIT_CAP` (40_sequencer.md R107). -/
def inRangeUnpack (s : State) : Bool := decide (s.blen.toNat ≤ s.bitCap)

/-- `inrange(3)`: `BLEN <= BIT_CAP` and `HLEN <= HOST_CAP` (40_sequencer.md R107). -/
def inRangeInject (s : State) : Bool := decide (s.blen.toNat ≤ s.bitCap) && decide (s.hlen.toNat ≤ s.hostCap)

/-- `inrange(4)`: `HLEN <= HOST_CAP` (40_sequencer.md R107). -/
def inRangeExtract (s : State) : Bool := decide (s.hlen.toNat ≤ s.hostCap)

/-- `inrange(5)`: `HLEN <= HOST_CAP`; no value of LIMIT is out of range (40_sequencer.md R107; 43_extract.md R166). -/
def inRangeExtractl (s : State) : Bool := decide (s.hlen.toNat ≤ s.hostCap)

/-- `count(1) = 8 * PLEN` (40_sequencer.md R107). -/
def countPack (s : State) : Nat := 8 * s.plen.toNat

/-- `count(2) = 8 * (BLEN div 8)` (40_sequencer.md R107). -/
def countUnpack (s : State) : Nat := 8 * (s.blen.toNat / 8)

/-- `count(3) = BLEN` (40_sequencer.md R107). -/
def countInject (s : State) : Nat := s.blen.toNat

/-- `count(4) = HLEN` (40_sequencer.md R107). -/
def countExtract (s : State) : Nat := s.hlen.toNat

/-- `count(5) = min(HLEN, LIMIT)` (40_sequencer.md R107). -/
def countExtractl (s : State) : Nat := min s.hlen.toNat s.limit.toNat

/-- The capacity check of INJECT: `BLEN > HLEN`, strict (42_inject.md R143). -/
def overCapacity (s : State) : Bool := decide (s.hlen.toNat < s.blen.toNat)

end Sys2Proof.Machine
end

