-- ==== Sys2Proof/Machine/Flags.lean ====
section
/-! DEFINITION. The fields of STATUS (10_state.md R26) and the three error causes (60_exceptions.md R200). -/

namespace Sys2Proof.Machine

/-- The errors the block raises (60_exceptions.md R200). -/
inductive ErrorCause where
  /-- CapacityError, R201. -/
  | capacity
  /-- IllegalCommand, R202. -/
  | illegalCommand
  /-- BoundsError, R203. -/
  | bounds
  deriving DecidableEq, Repr

/-- `code(E)`: the number CAUSE holds (60_exceptions.md R200). -/
def ErrorCause.code : ErrorCause → BitVec 4
  | .capacity => 1#4
  | .illegalCommand => 2#4
  | .bounds => 3#4

/-- BUSY, bit 0 of STATUS. -/
def statusBusy (st : Word) : Bool := st.getLsbD 0

/-- DONE, bit 1 of STATUS. -/
def statusDone (st : Word) : Bool := st.getLsbD 1

/-- ERR, bit 2 of STATUS. -/
def statusErr (st : Word) : Bool := st.getLsbD 2

/-- CAUSE, bits 7:4 of STATUS. -/
def statusCause (st : Word) : BitVec 4 := st.extractLsb' 4 4

/-- The reserved bits of STATUS that read 0: bit 3 and bits 31:8 (10_state.md R26). -/
def statusReserved (st : Word) : Word := st &&& 0xFFFFFF08#32

/-- `STATUS.BUSY <- b`. -/
def setBusy (st : Word) (b : Bool) : Word := (st &&& ~~~0x1#32) ||| (if b then 0x1#32 else 0x0#32)

/-- `STATUS.DONE <- b`. -/
def setDone (st : Word) (b : Bool) : Word := (st &&& ~~~0x2#32) ||| (if b then 0x2#32 else 0x0#32)

/-- `STATUS.ERR <- b`. -/
def setErr (st : Word) (b : Bool) : Word := (st &&& ~~~0x4#32) ||| (if b then 0x4#32 else 0x0#32)

/-- `STATUS.CAUSE <- c`. -/
def setCause (st : Word) (c : BitVec 4) : Word := (st &&& ~~~0xF0#32) ||| (c.setWidth 32 <<< 4)

/-- BUSY of a state. -/
def State.busy (s : State) : Bool := statusBusy s.status

/-- DONE of a state. -/
def State.done (s : State) : Bool := statusDone s.status

/-- ERR of a state. -/
def State.err (s : State) : Bool := statusErr s.status

/-- CAUSE of a state. -/
def State.cause (s : State) : BitVec 4 := statusCause s.status

end Sys2Proof.Machine
end

