-- ==== Sys2Proof/Machine/Ops.lean ====
section
/-! DEFINITION. The shared operations: buffers and their cells, the register file, command issue, error entry, the start
and the end of a command, and reset. -/

namespace Sys2Proof.Machine

/-! ### Buffers -/

/-- The value stored at index `a`, if the cell has been written since reset. -/
def Memory.lookup {w : Nat} : Memory w → Nat → Option (BitVec w)
  | [], _ => none
  | (b, v) :: m, a => if a = b then some v else Memory.lookup m a

/-- Store `v` at index `a`, keeping the indices strictly rising. -/
def Memory.store {w : Nat} : Memory w → Nat → BitVec w → Memory w
  | [], a, v => [(a, v)]
  | (b, u) :: m, a, v =>
    if a < b then (a, v) :: (b, u) :: m
    else if a = b then (a, v) :: m
    else (b, u) :: Memory.store m a v

/-- The canonical form of a buffer of `cap` cells: indices strictly rising, all below the capacity. No entry can equal
what an unlisted index holds, since that is no stored value at all (log 14). -/
abbrev Memory.wf {w : Nat} (cap : Nat) (m : Memory w) : Prop :=
  m.Pairwise (fun c d => c.1 < d.1) ∧ ∀ c ∈ m, c.1 < cap

/-- What cell `a` of HOST holds: the stored value, else the power-up value (20_memory.md R62; 93 U1). -/
def State.hostAt (s : State) (a : Nat) : Byte := (Memory.lookup s.host a).getD (Config.hostPowerUp s.epoch a)

/-- What cell `a` of PAY holds: the stored value, else the power-up value (20_memory.md R62; 93 U1). -/
def State.payAt (s : State) (a : Nat) : Byte := (Memory.lookup s.pay a).getD (Config.payPowerUp s.epoch a)

/-- What cell `a` of BIT holds: the stored value, else the power-up value (20_memory.md R62; 93 U1). -/
def State.bitAt (s : State) (a : Nat) : Bit := (Memory.lookup s.bits a).getD (Config.bitPowerUp s.epoch a)

/-- `MemRead(HOST:a, 1)`; none where the cell does not exist (00_scope.md R11; 20_memory.md R50). -/
def State.readHost (s : State) (a : Nat) : Option Byte := if a < s.hostCap then some (s.hostAt a) else none

/-- `MemRead(PAY:a, 1)`; none where the cell does not exist (00_scope.md R11; 20_memory.md R50). -/
def State.readPay (s : State) (a : Nat) : Option Byte := if a < s.payCap then some (s.payAt a) else none

/-- `MemRead(BIT:a, 1)`; none where the cell does not exist (00_scope.md R11; 20_memory.md R50). -/
def State.readBit (s : State) (a : Nat) : Option Bit := if a < s.bitCap then some (s.bitAt a) else none

/-- `MemWrite(HOST:a, 1, v)`; none where the cell does not exist (00_scope.md R11; 20_memory.md R50). -/
def State.writeHost (s : State) (a : Nat) (v : Byte) : Option State :=
  if a < s.hostCap then some { s with host := Memory.store s.host a v } else none

/-- `MemWrite(PAY:a, 1, v)`; none where the cell does not exist (00_scope.md R11; 20_memory.md R50). -/
def State.writePay (s : State) (a : Nat) (v : Byte) : Option State :=
  if a < s.payCap then some { s with pay := Memory.store s.pay a v } else none

/-- `MemWrite(BIT:a, 1, v)`; none where the cell does not exist (00_scope.md R11; 20_memory.md R50). -/
def State.writeBit (s : State) (a : Nat) (v : Bit) : Option State :=
  if a < s.bitCap then some { s with bits := Memory.store s.bits a v } else none

/-- `HOST[0 .. n)` as a sequence (00_scope.md R9). -/
def State.hostRange (s : State) (n : Nat) : List Byte := (List.range n).map s.hostAt

/-- `PAY[0 .. n)` as a sequence (00_scope.md R9). -/
def State.payRange (s : State) (n : Nat) : List Byte := (List.range n).map s.payAt

/-- `BIT[0 .. n)` as a sequence (00_scope.md R9). -/
def State.bitRange (s : State) (n : Nat) : List Bit := (List.range n).map s.bitAt

/-- `for i in 0 .. n - 1: f i`, in increasing order; none as soon as one access names a cell that does not exist. -/
def forEach : Nat → (Nat → State → Option State) → State → Option State
  | 0, _, s => some s
  | n + 1, f, s => (forEach n f s).bind (f n)

/-! ### The register file -/

/-- `x[n]`; none for a number above 8 (10_state.md R24, R34). -/
def State.readReg (s : State) (n : Nat) : Option Word :=
  match n with
  | 0 => some s.cmd
  | 1 => some s.status
  | 2 => some s.hlen
  | 3 => some s.plen
  | 4 => some s.blen
  | 5 => some s.limit
  | 6 => some s.idx
  | 7 => some s.hcap
  | 8 => some s.pcap
  | _ => none

/-- `x[n] <- v` by the host, for the registers it may store to: HLEN, PLEN, BLEN and LIMIT take any value, STATUS, IDX,
HCAP and PCAP ignore it (10_state.md R24; 40_sequencer.md R101). Register 0 is a command issue, not a store. -/
def State.writeReg (s : State) (n : Nat) (v : Word) : State :=
  match n with
  | 2 => { s with hlen := v }
  | 3 => { s with plen := v }
  | 4 => { s with blen := v }
  | 5 => { s with limit := v }
  | _ => s

/-! ### Command issue and its errors -/

/-- The first three lines of a command issue: `CMD <- w ; STATUS <- 0 ; IDX <- 0` (40_sequencer.md R106). -/
def latchCommand (w : Word) (s : State) : State := { s with cmd := w, status := 0#32, idx := 0#32 }

/-- Error entry, `raise E`: `STATUS.DONE <- 1 ; STATUS.ERR <- 1 ; STATUS.CAUSE <- code(E)`, BUSY stays 0. Nothing is
saved, no mode changes, control goes nowhere (60_exceptions.md R206). There is no return operation: the indication
stays until the next command issue (R208), which `latchCommand` begins. -/
def raise (e : ErrorCause) (s : State) : State :=
  { s with status := setCause (setErr (setDone s.status true) true) e.code }

/-- The last three lines of a command issue that finds no error: `OP <- op ; CNT <- count(op) ; STATUS.BUSY <- 1`
(40_sequencer.md R106). -/
def start (op : BitVec 8) (count : Nat) (s : State) : State :=
  { s with op := op, cnt := BitVec.ofNat 32 count, status := setBusy s.status true }

/-- The checks of a command issue after decoding, in their order (40_sequencer.md R106; 60_exceptions.md R205):
BoundsError, then CapacityError, then the start. -/
def checkAndStart (inRange overCap : Bool) (op : BitVec 8) (count : Nat) (s : State) : State :=
  if inRange = false then raise .bounds s
  else if overCap then raise .capacity s
  else start op count s

/-- The last two lines of a finish step: `STATUS.BUSY <- 0 ; STATUS.DONE <- 1` (40_sequencer.md R109). -/
def endCommand (s : State) : State := { s with status := setDone (setBusy s.status false) true }

/-- A whole command, from the write of its word to its finish step, as one atomic step (40_sequencer.md R111): while
busy the write is dropped (R105); `checks` decides whether it starts; a command that starts has its big-step effect,
after which `IDX = CNT` and STATUS says done. -/
def runCommand (w : Word) (checks : State → State) (effect : State → Option State) (s : State) :
    Host.Outcome State Fault Refusal :=
  if s.busy then .next s
  else
    let t := checks (latchCommand w s)
    if t.busy then
      match effect t with
      | some u => .next (endCommand { u with idx := u.cnt })
      | none => .fault .cellOutsideBuffer
    else .next t

/-! ### Replies to the host, and reset -/

/-- A read returns `r` (40_sequencer.md R100, R102; log 9). -/
def answer (r : Reply) (s : State) : State := { s with replies := r :: s.replies }

/-- A read returns an unspecified value, drawn afresh (93 U2; log 3). -/
def answerFree (r : Nat → Reply) (s : State) : State :=
  { s with replies := r s.draws :: s.replies, draws := s.draws + 1 }

/-- A reset event, in any state: all registers and latches at their reset values, every cell of every buffer unspecified
afresh (70_reset_and_hazards.md R230, R232; 10_state.md R37). The environment's schedule and the replies the host has
seen are not the block's and stay (log 12). -/
def resetBlock (s : State) : State :=
  { State.resetOf s.hcap s.pcap (s.epoch + 1) with
    draws := s.draws, schedule := s.schedule, replies := s.replies }

end Sys2Proof.Machine
end

