-- ==== Sys2Proof/Machine/Extract.lean ====
section
/-! DEFINITION. EXTRACT and EXTRACTL: checks at issue, bit step, finish step, big-step effect, and the meaning of the
whole command (43_extract.md). -/

namespace Sys2Proof.Machine

/-- `BIT[i] <- lsb(HOST[i])`, the bit step both commands share (43_extract.md R163, R167). -/
def extractOne (i : Nat) (s : State) : Option State :=
  (s.readHost i).bind fun h => s.writeBit i (lsb h)

/-! ### EXTRACT -/

/-- The checks of EXTRACT at issue: BoundsError when `HLEN > HOST_CAP`, no other error (43_extract.md R162). -/
def checksExtract (s : State) : State := checkAndStart (inRangeExtract s) false (opcodeOf .extract) (countExtract s) s

/-- The bit step of EXTRACT (43_extract.md R163). -/
def bodyExtract (i : Nat) (s : State) : Option State := extractOne i s

/-- The finish step of EXTRACT writes `BLEN <- CNT` (40_sequencer.md R109). -/
def finishExtract (s : State) : State := { s with blen := s.cnt }

/-- The big-step effect of EXTRACT: `BIT[i] <- HOST[i] & 1` for every `i < HLEN`, then `BLEN <- HLEN` (43_extract.md R162). -/
def effectExtract (s : State) : Option State :=
  (forEach s.hlen.toNat extractOne s).map fun t => { t with blen := s.hlen }

/-- EXTRACT (43_extract.md R162). -/
def execExtract (s : State) : Host.Outcome State Fault Refusal :=
  runCommand (encode .extract) checksExtract effectExtract s

/-! ### EXTRACTL -/

/-- The checks of EXTRACTL at issue: BoundsError when `HLEN > HOST_CAP`; no value of LIMIT is an error (43_extract.md R166). -/
def checksExtractl (s : State) : State :=
  checkAndStart (inRangeExtractl s) false (opcodeOf .extractl) (countExtractl s) s

/-- The bit step of EXTRACTL, the same as EXTRACT's (43_extract.md R167). -/
def bodyExtractl (i : Nat) (s : State) : Option State := extractOne i s

/-- The finish step of EXTRACTL writes `BLEN <- CNT` (40_sequencer.md R109). -/
def finishExtractl (s : State) : State := { s with blen := s.cnt }

/-- The big-step effect of EXTRACTL: with `n = min(HLEN, LIMIT)`, `BIT[i] <- HOST[i] & 1` for every `i < n`, then
`BLEN <- n` (43_extract.md R166). -/
def effectExtractl (s : State) : Option State :=
  (forEach (min s.hlen.toNat s.limit.toNat) extractOne s).map fun t =>
    { t with blen := BitVec.ofNat 32 (min s.hlen.toNat s.limit.toNat) }

/-- EXTRACTL (43_extract.md R166). -/
def execExtractl (s : State) : Host.Outcome State Fault Refusal :=
  runCommand (encode .extractl) checksExtractl effectExtractl s

end Sys2Proof.Machine
end

