-- ==== Sys2Proof/Machine/Inject.lean ====
section
/-! DEFINITION. INJECT: checks at issue, bit step, finish step, big-step effect, and the meaning of the whole command
(42_inject.md). -/

namespace Sys2Proof.Machine

/-- The checks of INJECT at issue: BoundsError when `BLEN > BIT_CAP` or `HLEN > HOST_CAP`, then CapacityError when
`BLEN > HLEN` (42_inject.md R141, R143). -/
def checksInject (s : State) : State :=
  checkAndStart (inRangeInject s) (overCapacity s) (opcodeOf .inject) (countInject s) s

/-- The bit step of INJECT: `HOST[i] <- setlsb(HOST[i], BIT[i])`, one indivisible read-modify-write (42_inject.md R142). -/
def bodyInject (i : Nat) (s : State) : Option State :=
  (s.readHost i).bind fun h => (s.readBit i).bind fun b => s.writeHost i (setlsb h b)

/-- The finish step of INJECT writes no length register (40_sequencer.md R109). -/
def finishInject (s : State) : State := s

/-- The big-step effect of INJECT: `HOST[i] <- (HOST[i] & 0xFE) | BIT[i]` for every `i < BLEN` (42_inject.md R141). -/
def effectInject (s : State) : Option State := forEach s.blen.toNat bodyInject s

/-- INJECT (42_inject.md R141). -/
def execInject (s : State) : Host.Outcome State Fault Refusal := runCommand (encode .inject) checksInject effectInject s

end Sys2Proof.Machine
end

