-- ==== Sys2Proof/Machine/PackUnpack.lean ====
section
/-! DEFINITION. PACK and UNPACK: checks at issue, bit step, length written at the finish step, big-step effect, and the
meaning of the whole command (41_pack_unpack.md). -/

namespace Sys2Proof.Machine

/-! ### PACK -/

/-- The checks of PACK at issue: BoundsError when `PLEN > PAY_CAP`, no other error (41_pack_unpack.md R122). -/
def checksPack (s : State) : State := checkAndStart (inRangePack s) false (opcodeOf .pack) (countPack s) s

/-- The bit step of PACK: `BIT[i] <- msbbit(PAY[i div 8], i mod 8)` (41_pack_unpack.md R123). -/
def bodyPack (i : Nat) (s : State) : Option State :=
  (s.readPay (i / 8)).bind fun p => s.writeBit i (msbbit p (i % 8))

/-- The finish step of PACK writes `BLEN <- CNT` (40_sequencer.md R109). -/
def finishPack (s : State) : State := { s with blen := s.cnt }

/-- The big-step effect of PACK: BIT[i] for every `i < 8 * PLEN`, then `BLEN <- 8 * PLEN` (41_pack_unpack.md R122). -/
def effectPack (s : State) : Option State :=
  (forEach (8 * s.plen.toNat) bodyPack s).map fun t => { t with blen := BitVec.ofNat 32 (8 * s.plen.toNat) }

/-- PACK (41_pack_unpack.md R122). -/
def execPack (s : State) : Host.Outcome State Fault Refusal := runCommand (encode .pack) checksPack effectPack s

/-! ### UNPACK -/

/-- The checks of UNPACK at issue: BoundsError when `BLEN > BIT_CAP`, no other error (41_pack_unpack.md R126). -/
def checksUnpack (s : State) : State := checkAndStart (inRangeUnpack s) false (opcodeOf .unpack) (countUnpack s) s

/-- The bit step of UNPACK: `PAY[i div 8] <- putbit(PAY[i div 8], i mod 8, BIT[i])` (41_pack_unpack.md R127). -/
def bodyUnpack (i : Nat) (s : State) : Option State :=
  (s.readPay (i / 8)).bind fun p => (s.readBit i).bind fun b => s.writePay (i / 8) (putbit p (i % 8) b)

/-- The finish step of UNPACK writes `PLEN <- CNT div 8` (40_sequencer.md R109). -/
def finishUnpack (s : State) : State := { s with plen := BitVec.ofNat 32 (s.cnt.toNat / 8) }

/-- The byte that `BIT[8j .. 8j+8)` stands for (41_pack_unpack.md R126). -/
def gatherByte (s : State) (j : Nat) : Option Byte :=
  (s.readBit (8 * j)).bind fun b0 => (s.readBit (8 * j + 1)).bind fun b1 =>
  (s.readBit (8 * j + 2)).bind fun b2 => (s.readBit (8 * j + 3)).bind fun b3 =>
  (s.readBit (8 * j + 4)).bind fun b4 => (s.readBit (8 * j + 5)).bind fun b5 =>
  (s.readBit (8 * j + 6)).bind fun b6 => (s.readBit (8 * j + 7)).bind fun b7 =>
  some (byteOfBits b0 b1 b2 b3 b4 b5 b6 b7)

/-- One byte of UNPACK's big-step effect: `PAY[j] <- BIT[8j]*128 + ... + BIT[8j+7]` (41_pack_unpack.md R126). -/
def unpackByte (j : Nat) (s : State) : Option State := (gatherByte s j).bind fun p => s.writePay j p

/-- The big-step effect of UNPACK: PAY[j] for every `j < BLEN div 8`, then `PLEN <- BLEN div 8` (41_pack_unpack.md R126). -/
def effectUnpack (s : State) : Option State :=
  (forEach (s.blen.toNat / 8) unpackByte s).map fun t => { t with plen := BitVec.ofNat 32 (s.blen.toNat / 8) }

/-- UNPACK (41_pack_unpack.md R126). -/
def execUnpack (s : State) : Host.Outcome State Fault Refusal := runCommand (encode .unpack) checksUnpack effectUnpack s

end Sys2Proof.Machine
end

