-- ==== Sys2Proof/Machine/Dispatch.lean ====
section
/-! DEFINITION. One arm per command. -/

namespace Sys2Proof.Machine

def exec (i : Instr) (s : State) : Host.Outcome State Fault Refusal :=
  match i with
  | .pack => Sys2Proof.Machine.execPack s
  | .unpack => Sys2Proof.Machine.execUnpack s
  | .inject => Sys2Proof.Machine.execInject s
  | .extract => Sys2Proof.Machine.execExtract s
  | .extractl => Sys2Proof.Machine.execExtractl s

end Sys2Proof.Machine
end

