-- ==== Sys2Proof/Machine/Sequencer.lean ====
section
/-! DEFINITION. Command issue and the sequencer: one atomic step each for the issue, a bit step and the finish step
(40_sequencer.md R106, R108, R109). -/

namespace Sys2Proof.Machine

/-- The checks at issue of each command, ending in an error entry or in the start (40_sequencer.md R106, R107). -/
def checksOf : Instr → State → State
  | .pack, s => checksPack s
  | .unpack, s => checksUnpack s
  | .inject, s => checksInject s
  | .extract, s => checksExtract s
  | .extractl, s => checksExtractl s

/-- `body(op, i)` of each command (40_sequencer.md R108). -/
def bodyOf : Instr → Nat → State → Option State
  | .pack, i, s => bodyPack i s
  | .unpack, i, s => bodyUnpack i s
  | .inject, i, s => bodyInject i s
  | .extract, i, s => bodyExtract i s
  | .extractl, i, s => bodyExtractl i s

/-- The length register each command writes in its finish step (40_sequencer.md R109). -/
def finishOf : Instr → State → State
  | .pack, s => finishPack s
  | .unpack, s => finishUnpack s
  | .inject, s => finishInject s
  | .extract, s => finishExtract s
  | .extractl, s => finishExtractl s

/-- Command issue: the host writes `w` to CMD while BUSY is 0 (40_sequencer.md R106). -/
def issue (w : Word) (s : State) : State :=
  match decode w with
  | .error _ => raise .illegalCommand (latchCommand w s)
  | .ok i => checksOf i (latchCommand w s)

/-- A bit step of command `c`: `body(OP, IDX)`, then `IDX <- IDX + 1` (40_sequencer.md R108). -/
def bitStep (c : Instr) (s : State) : Host.Outcome State Fault Refusal :=
  match bodyOf c s.idx.toNat s with
  | some t => .next { t with idx := s.idx + 1#32 }
  | none => .fault .cellOutsideBuffer

/-- The finish step of command `c` (40_sequencer.md R109). -/
def finishStep (c : Instr) (s : State) : State := endCommand (finishOf c s)

/-- The sequencer's step while BUSY is 1: a bit step when `IDX < CNT`, the finish step when `IDX = CNT`; otherwise none
is enabled (40_sequencer.md R108, R109). -/
def sequencerStep (s : State) : Host.Outcome State Fault Refusal :=
  match opcodeInstr s.op with
  | none => .fault .noEnabledStep
  | some c =>
    if s.idx.toNat < s.cnt.toNat then bitStep c s
    else if s.idx = s.cnt then .next (finishStep c s)
    else .fault .noEnabledStep

end Sys2Proof.Machine
end

