-- ==== Sys2Proof/Machine/HostPort.lean ====
section
/-! DEFINITION. The four host transactions, their admission and the BUSY lock (40_sequencer.md R100 to R105). -/

namespace Sys2Proof.Machine

/-- Admission: a register number at most 8, an index below the capacity of its space (40_sequencer.md R104). -/
def admitted (s : State) : Transaction → Bool
  | .regRead n => decide (n ≤ 8)
  | .regWrite n _ => decide (n ≤ 8)
  | .bufRead .host a => decide (a < s.hostCap)
  | .bufRead .pay a => decide (a < s.payCap)
  | .bufRead .bit a => decide (a < s.bitCap)
  | .hostWrite a _ => decide (a < s.hostCap)
  | .payWrite a _ => decide (a < s.payCap)
  | .bitWrite a _ => decide (a < s.bitCap)

/-- What a step that may have no outcome answers: a cell or register that does not exist is not admitted. -/
def admitOr (o : Option State) : Host.Outcome State Fault Refusal :=
  match o with
  | some t => .next t
  | none => .refused .notAdmitted

/-- An admitted transaction while BUSY is 0. -/
def transactIdle (s : State) : Transaction → Option State
  | .regRead n => (s.readReg n).map fun v => answer (.word v) s
  | .regWrite n v => some (if n = 0 then issue v s else s.writeReg n v)
  | .bufRead .host a => (s.readHost a).map fun v => answer (.byte v) s
  | .bufRead .pay a => (s.readPay a).map fun v => answer (.byte v) s
  | .bufRead .bit a => (s.readBit a).map fun v => answer (.bit v) s
  | .hostWrite a v => s.writeHost a v
  | .payWrite a v => s.writePay a v
  | .bitWrite a v => s.writeBit a v

/-- An admitted transaction while BUSY is 1: STATUS reads as it is, every other read returns an unspecified value, every
write is dropped (40_sequencer.md R105). -/
def transactBusy (s : State) : Transaction → State
  | .regRead n => if n = 1 then answer (.word s.status) s else answerFree (fun d => .word (Config.busyWord d)) s
  | .regWrite _ _ => s
  | .bufRead .host _ => answerFree (fun d => .byte (Config.busyByte d)) s
  | .bufRead .pay _ => answerFree (fun d => .byte (Config.busyByte d)) s
  | .bufRead .bit _ => answerFree (fun d => .bit (Config.busyBit d)) s
  | .hostWrite _ _ => s
  | .payWrite _ _ => s
  | .bitWrite _ _ => s

/-- A host transaction (40_sequencer.md R100 to R105). -/
def transact (t : Transaction) (s : State) : Host.Outcome State Fault Refusal :=
  if admitted s t then
    if s.busy then .next (transactBusy s t) else admitOr (transactIdle s t)
  else .refused .notAdmitted

end Sys2Proof.Machine
end

