-- ==== Sys2Proof/Machine/Turns.lean ====
section
/-! DEFINITION. What one entry of the schedule does (log 4), and the schedule entries that carry a command word. -/

namespace Sys2Proof.Machine

/-- A sequencer turn: one sequencer step while BUSY is 1; none is enabled while BUSY is 0, and nothing happens
(40_sequencer.md R109; 60_exceptions.md R212). -/
def sequencerTurn (s : State) : Host.Outcome State Fault Refusal :=
  if s.busy then sequencerStep s else .next s

/-- A whole command as one step: the word is decoded as it is written to CMD (20_memory.md R66), a legal command runs
to its end, an illegal word raises IllegalCommand (60_exceptions.md R202); dropped while busy (40_sequencer.md R105). -/
def commandTurn (w : Word) (s : State) : Host.Outcome State Fault Refusal :=
  match decode w with
  | .ok i => exec i s
  | .error _ => .next (if s.busy then s else issue w s)

/-- The script line `wait` (30_encoding.md R87) at a given pace: how many turns the sequencer gets before the first poll,
before the second, and so on; after the end of the list one before each, since the sequencer is weakly fair
(40_sequencer.md R110). No rule bounds the number of polls (44_host_sequences.md R183), and every number from one on is
that of some pace (log 7). -/
def scriptWait : List Nat → List Turn
  | [] => [.sequencer, .wait []]
  | g :: gaps => List.replicate g .sequencer ++ [.wait gaps]

/-- One poll of `wait`: `RegRead(1)`; while the value read has BUSY = 1 the line goes on, at the pace that is left
(30_encoding.md R87; 40_sequencer.md R113; log 7). -/
def waitTurn (gaps : List Nat) (s : State) : Host.Outcome State Fault Refusal :=
  let t := answer (.word s.status) s
  .next (if s.busy then { t with schedule := scriptWait gaps ++ s.schedule } else t)

/-- The script line `rd STATUS ; stop if ERR`: `RegRead(1)`; if the value read has ERR = 1 the next `n` turns are not
taken (44_host_sequences.md R180 to R182; 70_reset_and_hazards.md R240). That the stop ends no more than those is the
model's choice (log 8). -/
def stopOnErrorTurn (n : Nat) (s : State) : Host.Outcome State Fault Refusal :=
  let t := answer (.word s.status) s
  .next (if s.err then { t with schedule := s.schedule.drop n } else t)

/-- What a turn does, its entry already taken off the schedule. -/
def takeTurn (t : Turn) (s : State) : Host.Outcome State Fault Refusal :=
  match t with
  | .host x => transact x s
  | .sequencer => sequencerTurn s
  | .command w => commandTurn w s
  | .reset => .next (resetBlock s)
  | .wait gaps => waitTurn gaps s
  | .stopOnError n => stopOnErrorTurn n s

/-- The next step: the first entry of the schedule; with an empty schedule the sequencer moves while busy
(40_sequencer.md R110, weak fairness), and an idle block waits for the next transaction (60_exceptions.md R206; log 5). -/
def nextTurn (s : State) : Host.Outcome State Fault Refusal :=
  match s.schedule with
  | [] => sequencerTurn s
  | t :: rest => takeTurn t { s with schedule := rest }

/-- The turn that runs the command word `w`, in front of the schedule (log 13). -/
def scheduleWord (w : Nat) (s : State) : State :=
  { s with schedule := .command (BitVec.ofNat 32 w) :: s.schedule }

end Sys2Proof.Machine
end

