-- ==== Sys2Proof/Machine/Step.lean ====
section
/-! DEFINITION. One step of the machine, and where a command word is placed. -/

namespace Sys2Proof.Machine

/-- One step: the agent the schedule names moves (log 4). -/
def step (s : State) : Host.Outcome State Fault Refusal := nextTurn s

/-- `s` with the command word `w` as the next entry of its schedule, so that the next step decodes and runs it. The block
fetches nothing: a command exists only as the word the host writes to CMD (20_memory.md R66; log 13). A command has 32
bits (30_encoding.md R80), so `nbits` changes nothing: the bits above it are 0 in `w`. -/
def State.withFetchWord (s : State) (_nbits w : Nat) : State := scheduleWord w s

end Sys2Proof.Machine
end

