-- ==== Sys2Proof/Machine/Functions.lean ====
section
/-! DEFINITION. The source's four functions on sequences: pack, unpack, inject, extract (41_pack_unpack.md R120, R121;
42_inject.md R140; 43_extract.md R160). -/

namespace Sys2Proof.Machine

/-- The eight bits of a byte, most significant first. -/
def packByte (p : Byte) : List Bit :=
  [msbbit p 0, msbbit p 1, msbbit p 2, msbbit p 3, msbbit p 4, msbbit p 5, msbbit p 6, msbbit p 7]

/-- `pack(P)`: the bits of every byte in order, most significant first (41_pack_unpack.md R120). -/
def packBytes : List Byte → List Bit
  | [] => []
  | p :: ps => packByte p ++ packBytes ps

/-- `unpack(B)`: each group of eight bits as a byte, a trailing incomplete group dropped (41_pack_unpack.md R121). -/
def unpackBits : List Bit → List Byte
  | b0 :: b1 :: b2 :: b3 :: b4 :: b5 :: b6 :: b7 :: bs => byteOfBits b0 b1 b2 b3 b4 b5 b6 b7 :: unpackBits bs
  | _ => []

/-- The overwriting of LSBs, one bit per byte, bytes beyond the bits untouched. -/
def overwriteLsbs : List Byte → List Bit → List Byte
  | h :: hs, b :: bs => setlsb h b :: overwriteLsbs hs bs
  | hs, _ => hs

/-- `inject(H, B)`, defined only for `|B| <= |H|` (42_inject.md R140). -/
def injectBits (hs : List Byte) (bs : List Bit) : Option (List Byte) :=
  if bs.length ≤ hs.length then some (overwriteLsbs hs bs) else none

/-- `extract(H, n)`, defined only for `n <= |H|` (43_extract.md R160). -/
def extractBits (hs : List Byte) (n : Nat) : Option (List Bit) :=
  if n ≤ hs.length then some ((hs.take n).map lsb) else none

end Sys2Proof.Machine
end

