-- ==== Sys2Proof/Machine/Scripts.lean ====
section
/-! DEFINITION. The script notation (30_encoding.md R87) and the pseudo-commands (44_host_sequences.md R180 to R183), as
pieces of a schedule; `wait` is `scriptWait` (Machine/Turns.lean). -/

namespace Sys2Proof.Machine

/-- `wr REG, v` with the register's number. -/
def scriptWr (n : Nat) (v : Word) : List Turn := [.host (.regWrite n v)]

/-- `rd REG` with the register's number. -/
def scriptRd (n : Nat) : List Turn := [.host (.regRead n)]

/-- `rdb S[a]`. -/
def scriptRdb (sp : Space) (a : Nat) : List Turn := [.host (.bufRead sp a)]

/-- `wrs HOST[a], v0 v1 ...`. -/
def scriptWrsHost : Nat → List Byte → List Turn
  | _, [] => []
  | a, v :: vs => .host (.hostWrite a v) :: scriptWrsHost (a + 1) vs

/-- `wrs PAY[a], v0 v1 ...`. -/
def scriptWrsPay : Nat → List Byte → List Turn
  | _, [] => []
  | a, v :: vs => .host (.payWrite a v) :: scriptWrsPay (a + 1) vs

/-- `wrs BIT[a], v0 v1 ...`. -/
def scriptWrsBit : Nat → List Bit → List Turn
  | _, [] => []
  | a, v :: vs => .host (.bitWrite a v) :: scriptWrsBit (a + 1) vs

/-- `cmd M`: the word of the command, written to CMD. -/
def scriptCmd (i : Instr) : List Turn := [.host (.regWrite 0 (encode i))]

/-- `rd STATUS ; stop if ERR` in front of the lines `tail` that it may stop: the rest of the pseudo-command, a DESIGN
CHOICE (log 8). -/
def scriptUnlessError (tail : List Turn) : List Turn := .stopOnError tail.length :: tail

/-- EMBED (44_host_sequences.md R180), its two `wait` lines at the paces `p` and `q`. The first `rd STATUS` stops EMBED on
ERR; the last line is a plain `rd STATUS`, which stops nothing. -/
def scriptEmbed (p q : List Nat) : List Turn :=
  scriptCmd .pack ++ scriptWait p ++ scriptUnlessError (scriptCmd .inject ++ scriptWait q ++ scriptRd 1)

/-- RECOVER (44_host_sequences.md R181), its two `wait` lines at the paces `p` and `q`. -/
def scriptRecover (p q : List Nat) : List Turn :=
  scriptCmd .extract ++ scriptWait p ++ scriptUnlessError (scriptCmd .unpack ++ scriptWait q)

/-- RECOVERN n (44_host_sequences.md R182), its two `wait` lines at the paces `p` and `q`. -/
def scriptRecoverN (n : Word) (p q : List Nat) : List Turn :=
  scriptWr 5 n ++ scriptCmd .extractl ++ scriptWait p ++ scriptUnlessError (scriptCmd .unpack ++ scriptWait q)

end Sys2Proof.Machine
end

