-- ==== Sys2Proof/Safety.lean ====
section
/-! DEFINITION. What counts as a safe run, and the words statements use: the block without the model's own bookkeeping,
the tables of 40_sequencer.md R107 by command, and the invariant of reachable states (10_state.md R36). -/

namespace Sys2Proof.Machine

/-- The block's own state (10_state.md R20, with the epoch that says what its unwritten cells hold): everything but the
schedule, the replies and the draws already made. -/
def State.block (s : State) : State := { s with schedule := [], replies := [], draws := 0 }

/-- The parameters of the instance meet 00_scope.md R5. -/
def State.capacitiesOk (s : State) : Prop := capacitiesWellFormed s.hostCap s.payCap = true

/-- `inrange(op)` by command (40_sequencer.md R107). -/
def inRangeOf : Instr → State → Bool
  | .pack, s => inRangePack s
  | .unpack, s => inRangeUnpack s
  | .inject, s => inRangeInject s
  | .extract, s => inRangeExtract s
  | .extractl, s => inRangeExtractl s

/-- `count(op)` by command (40_sequencer.md R107). -/
def countOf : Instr → State → Nat
  | .pack, s => countPack s
  | .unpack, s => countUnpack s
  | .inject, s => countInject s
  | .extract, s => countExtract s
  | .extractl, s => countExtractl s

/-- The capacity check by command: INJECT alone has one (42_inject.md R143). -/
def overCapacityOf : Instr → State → Bool
  | .inject, s => overCapacity s
  | .pack, _ => false
  | .unpack, _ => false
  | .extract, _ => false
  | .extractl, _ => false

/-- A command issued now would start: the block is idle and every check passes (40_sequencer.md R106). -/
def starts (c : Instr) (s : State) : Prop := s.busy = false ∧ inRangeOf c s = true ∧ overCapacityOf c s = false

/-- The six values STATUS can take (10_state.md R27). -/
def legalStatus (st : Word) : Prop := st ∈ [0x00#32, 0x01#32, 0x02#32, 0x16#32, 0x26#32, 0x36#32]

/-- The latches of a running command: OP is the opcode of a command whose operands are in range, and CNT its count,
which IDX has not passed (10_state.md R36 (b)). -/
def latchesOk (s : State) : Prop :=
  match opcodeInstr s.op with
  | none => False
  | some c => inRangeOf c s = true ∧ overCapacityOf c s = false ∧ s.cnt.toNat = countOf c s ∧ s.idx.toNat ≤ s.cnt.toNat

/-- The invariant of 10_state.md R36, with the canonical form of the three buffers. -/
structure Inv (s : State) : Prop where
  /-- The parameters meet R5. -/
  capacities : s.capacitiesOk
  /-- HOST is in canonical form. -/
  hostWf : Memory.wf s.hostCap s.host
  /-- PAY is in canonical form. -/
  payWf : Memory.wf s.payCap s.pay
  /-- BIT is in canonical form. -/
  bitsWf : Memory.wf s.bitCap s.bits
  /-- STATUS is one of its six values: R36 (a), (c) but for IDX, (d). -/
  statusLegal : legalStatus s.status
  /-- R36 (b). -/
  running : s.busy = true → latchesOk s
  /-- R36 (c), IDX. -/
  errIdx : s.err = true → s.idx = 0#32

/-- A safe step does not fault. -/
def faultFree (o : Host.Outcome State Fault Refusal) : Prop := ∀ f, o ≠ .fault f

/-- A turn that can stand between the issue and the finish of a command without ending it or leaving the block's
alphabet: a sequencer turn or an admitted host transaction (40_sequencer.md R111). -/
def quietTurn (s : State) : Turn → Bool
  | .sequencer => true
  | .host t => admitted s t
  | .command _ => false
  | .reset => false
  | .wait _ => false
  | .stopOnError _ => false

end Sys2Proof.Machine
end

