-- ==== Sys2Proof/Certificates/Slice0/Obligations.lean ====
section
/-! DEFINITION. The statements for the provers, from the numbered rules of spec/. -/

open Sys2Proof Sys2Proof.Machine

/-! ### Encoding -/

/-- 30_encoding.md R83: the five words, and no other word selects a command. -/
def Obligations.CommandIsExactlyOneWord : Prop :=
  ∀ w : Word,
    (decode w = .ok .pack ↔ w = 0x00000001#32) ∧
    (decode w = .ok .unpack ↔ w = 0x00000002#32) ∧
    (decode w = .ok .inject ↔ w = 0x00000003#32) ∧
    (decode w = .ok .extract ↔ w = 0x00000004#32) ∧
    (decode w = .ok .extractl ↔ w = 0x00000005#32)

/-- Decoding the word of a command gives the command back, and a word that decodes to a command is its word. -/
def Obligations.DecodeAndEncodeAgree : Prop :=
  (∀ i : Instr, i.wellFormed = true → decode (encode i) = .ok i) ∧
    ∀ (w : Word) (i : Instr), decode w = .ok i → encode i = w

/-- Words written out from the encoding of 30_encoding.md R81 and R83 (bits 31:8 zero, then the opcode) decode to the
commands they stand for, and the illegal words of the spec's vectors do not decode. -/
def Obligations.WrittenOutWordsDecode : Prop :=
  decode (0x000000#24 ++ 0x01#8) = .ok .pack ∧ decode (0x000000#24 ++ 0x02#8) = .ok .unpack ∧
    decode (0x000000#24 ++ 0x03#8) = .ok .inject ∧ decode (0x000000#24 ++ 0x04#8) = .ok .extract ∧
    decode (0x000000#24 ++ 0x05#8) = .ok .extractl ∧
    ∀ w ∈ [0x00000000#32, 0x00000006#32, 0x000000FF#32, 0x00000100#32, 0x00000101#32, 0x80000001#32, 0xFFFFFFFF#32],
      ∀ i : Instr, decode w ≠ .ok i

/-! ### The host's transactions -/

/-- 40_sequencer.md R100: RegRead. While idle it returns `x[n]`; while busy it returns STATUS, which is then
0x00000001, for n = 1, and some 32-bit value, drawn afresh, for any other n; it changes no state of the block. -/
def Obligations.RegReadReturnsRegisterOrUnspecified : Prop :=
  ∀ (s : State) (n : Nat), n ≤ 8 →
    (s.busy = false → ∃ v,
      [s.cmd, s.status, s.hlen, s.plen, s.blen, s.limit, s.idx, s.hcap, s.pcap][n]? = some v ∧
        transact (.regRead n) s = .next { s with replies := .word v :: s.replies }) ∧
    (s.busy = true → legalStatus s.status → n = 1 →
      transact (.regRead n) s = .next { s with replies := .word 0x00000001#32 :: s.replies }) ∧
    (s.busy = true → n ≠ 1 → ∃ v : Word,
      transact (.regRead n) s = .next { s with replies := .word v :: s.replies, draws := s.draws + 1 })

/-- 40_sequencer.md R101: RegWrite. -/
def Obligations.RegWriteStoresIgnoresOrIssues : Prop :=
  ∀ (s : State) (v : Word),
    (s.busy = true → ∀ n ≤ 8, transact (.regWrite n v) s = .next s) ∧
    (s.busy = false →
      transact (.regWrite 2 v) s = .next { s with hlen := v } ∧
      transact (.regWrite 3 v) s = .next { s with plen := v } ∧
      transact (.regWrite 4 v) s = .next { s with blen := v } ∧
      transact (.regWrite 5 v) s = .next { s with limit := v } ∧
      (∀ n ∈ [1, 6, 7, 8], transact (.regWrite n v) s = .next s) ∧
      transact (.regWrite 0 v) s = .next (issue v s))

/-- 40_sequencer.md R102: BufRead. -/
def Obligations.BufReadReturnsCellOrUnspecified : Prop :=
  ∀ (s : State) (a : Nat),
    (a < s.hostCap →
      (s.busy = false → transact (.bufRead .host a) s = .next { s with replies := .byte (s.hostAt a) :: s.replies }) ∧
      (s.busy = true → ∃ v : Byte, transact (.bufRead .host a) s =
        .next { s with replies := .byte v :: s.replies, draws := s.draws + 1 })) ∧
    (a < s.payCap →
      (s.busy = false → transact (.bufRead .pay a) s = .next { s with replies := .byte (s.payAt a) :: s.replies }) ∧
      (s.busy = true → ∃ v : Byte, transact (.bufRead .pay a) s =
        .next { s with replies := .byte v :: s.replies, draws := s.draws + 1 })) ∧
    (a < s.bitCap →
      (s.busy = false → transact (.bufRead .bit a) s = .next { s with replies := .bit (s.bitAt a) :: s.replies }) ∧
      (s.busy = true → ∃ v : Bit, transact (.bufRead .bit a) s =
        .next { s with replies := .bit v :: s.replies, draws := s.draws + 1 }))

/-- 40_sequencer.md R103: BufWrite. While idle it stores the one cell and nothing else; while busy it changes nothing. -/
def Obligations.BufWriteStoresOneCell : Prop :=
  ∀ (s : State) (a : Nat),
    (a < s.hostCap → ∀ v : Byte,
      (s.busy = true → transact (.hostWrite a v) s = .next s) ∧
      (s.busy = false → ∃ t, transact (.hostWrite a v) s = .next t ∧ t = { s with host := t.host } ∧
        t.hostAt a = v ∧ ∀ c, c ≠ a → t.hostAt c = s.hostAt c)) ∧
    (a < s.payCap → ∀ v : Byte,
      (s.busy = true → transact (.payWrite a v) s = .next s) ∧
      (s.busy = false → ∃ t, transact (.payWrite a v) s = .next t ∧ t = { s with pay := t.pay } ∧
        t.payAt a = v ∧ ∀ c, c ≠ a → t.payAt c = s.payAt c)) ∧
    (a < s.bitCap → ∀ v : Bit,
      (s.busy = true → transact (.bitWrite a v) s = .next s) ∧
      (s.busy = false → ∃ t, transact (.bitWrite a v) s = .next t ∧ t = { s with bits := t.bits } ∧
        t.bitAt a = v ∧ ∀ c, c ≠ a → t.bitAt c = s.bitAt c))

/-- 40_sequencer.md R104: a transaction is refused exactly when it names a register number above 8 or an index at or
above the capacity of its space. -/
def Obligations.RefusedExactlyWhenNotAdmitted : Prop :=
  ∀ s : State,
    (∀ n, transact (.regRead n) s = .refused .notAdmitted ↔ 8 < n) ∧
    (∀ n v, transact (.regWrite n v) s = .refused .notAdmitted ↔ 8 < n) ∧
    (∀ a, transact (.bufRead .host a) s = .refused .notAdmitted ↔ s.hcap.toNat ≤ a) ∧
    (∀ a, transact (.bufRead .pay a) s = .refused .notAdmitted ↔ s.pcap.toNat ≤ a) ∧
    (∀ a, transact (.bufRead .bit a) s = .refused .notAdmitted ↔ 8 * s.pcap.toNat ≤ a) ∧
    (∀ a v, transact (.hostWrite a v) s = .refused .notAdmitted ↔ s.hcap.toNat ≤ a) ∧
    (∀ a v, transact (.payWrite a v) s = .refused .notAdmitted ↔ s.pcap.toNat ≤ a) ∧
    (∀ a v, transact (.bitWrite a v) s = .refused .notAdmitted ↔ 8 * s.pcap.toNat ≤ a)

/-- The BUSY lock of 40_sequencer.md R105: while busy no admitted transaction changes the block, and no command, legal or
not, starts. -/
def Obligations.BusyBlockIsLocked : Prop :=
  ∀ s : State, s.busy = true →
    (∀ t : Transaction, admitted s t = true → ∃ u, transact t s = .next u ∧ u.block = s.block ∧ u.schedule = s.schedule) ∧
    (∀ c : Instr, exec c s = .next s) ∧ ∀ w : Word, commandTurn w s = .next s

/-- While busy the host learns only that the block is busy (40_sequencer.md R105): two busy blocks of one instance that
differ in all their buffers, registers and latches, but not in STATUS, answer a transaction alike. -/
def Obligations.BusyReadsRevealOnlyStatus : Prop :=
  ∀ (s₁ s₂ : State) (t : Transaction) (u₁ u₂ : State),
    s₁.busy = true → s₁.status = s₂.status → s₁.hcap = s₂.hcap → s₁.pcap = s₂.pcap →
    s₁.draws = s₂.draws → s₁.replies = s₂.replies →
    transact t s₁ = .next u₁ → transact t s₂ = .next u₂ → u₁.replies = u₂.replies ∧ u₁.draws = u₂.draws

/-- 40_sequencer.md R105: only a finish step or a reset clears BUSY. -/
def Obligations.OnlyFinishOrResetClearsBusy : Prop :=
  ∀ s t : State, s.busy = true → step s = .next t → t.busy = false →
    (∃ rest, s.schedule = .reset :: rest) ∨
    (s.idx = s.cnt ∧ (s.schedule = [] ∨ ∃ rest, s.schedule = .sequencer :: rest) ∧
      ∃ c, opcodeInstr s.op = some c ∧ t = { finishStep c s with schedule := s.schedule.tail })

/-! ### Command issue -/

/-- 40_sequencer.md R106, with the range predicates and counts of R107 written out: what a write to CMD does while idle,
for every word. -/
def Obligations.CommandIssueDecidesByWord : Prop :=
  ∀ (s : State) (w : Word), s.busy = false →
    transact (.regWrite 0 w) s = .next (
      let failed (st : Word) : State := { s with cmd := w, idx := 0#32, status := st }
      let started (op : BitVec 8) (count : Nat) : State :=
        { s with cmd := w, idx := 0#32, status := 0x00000001#32, op := op, cnt := BitVec.ofNat 32 count }
      let payCap := s.pcap.toNat
      let hostCap := s.hcap.toNat
      if w = 0x00000001#32 then
        if s.plen.toNat ≤ payCap then started 1#8 (8 * s.plen.toNat) else failed 0x00000036#32
      else if w = 0x00000002#32 then
        if s.blen.toNat ≤ 8 * payCap then started 2#8 (8 * (s.blen.toNat / 8)) else failed 0x00000036#32
      else if w = 0x00000003#32 then
        if s.blen.toNat ≤ 8 * payCap ∧ s.hlen.toNat ≤ hostCap then
          if s.hlen.toNat < s.blen.toNat then failed 0x00000016#32 else started 3#8 s.blen.toNat
        else failed 0x00000036#32
      else if w = 0x00000004#32 then
        if s.hlen.toNat ≤ hostCap then started 4#8 s.hlen.toNat else failed 0x00000036#32
      else if w = 0x00000005#32 then
        if s.hlen.toNat ≤ hostCap then started 5#8 (min s.hlen.toNat s.limit.toNat) else failed 0x00000036#32
      else failed 0x00000026#32)

/-- 60_exceptions.md R202, 30_encoding.md R84: a word with a nonzero bit in 31:8 or an opcode outside 1 to 5 raises
IllegalCommand: the word is stored in CMD, STATUS and IDX change, nothing else does. -/
def Obligations.IllegalWordRaisesIllegalCommand : Prop :=
  ∀ (s : State) (w : Word), s.busy = false →
    (w.extractLsb' 8 24 ≠ 0#24 ∨ w.extractLsb' 0 8 = 0x00#8 ∨ 0x06#8 ≤ w.extractLsb' 0 8) →
    transact (.regWrite 0 w) s = .next { s with cmd := w, idx := 0#32, status := 0x00000026#32 } ∧
      commandTurn w s = .next { s with cmd := w, idx := 0#32, status := 0x00000026#32 }

/-- 40_sequencer.md R107, the derived part, with the capacity check of R106 for INJECT: where a command starts, its count
is at most BIT_CAP and fits CNT, and every cell its bit steps use is inside its buffer. -/
def Obligations.StartedCommandStaysInsideBuffers : Prop :=
  ∀ (c : Instr) (s : State), s.capacitiesOk → inRangeOf c s = true → overCapacityOf c s = false →
    countOf c s ≤ s.bitCap ∧ (BitVec.ofNat 32 (countOf c s)).toNat = countOf c s ∧
      ∀ i < countOf c s, ∃ t, bodyOf c i s = some t

/-! ### The sequencer -/

/-- 41_pack_unpack.md R123: the bit step of PACK. -/
def Obligations.PackBitStepMovesOneBit : Prop :=
  ∀ s : State, s.busy = true → s.op = 1#8 → s.idx.toNat < s.cnt.toNat → s.idx.toNat < s.bitCap →
    ∃ t, sequencerTurn s = .next t ∧ t = { s with bits := t.bits, idx := s.idx + 1#32 } ∧
      t.bitAt s.idx.toNat = ((s.payAt (s.idx.toNat / 8) >>> (7 - s.idx.toNat % 8)) &&& 1#8).setWidth 1 ∧
      ∀ a, a ≠ s.idx.toNat → t.bitAt a = s.bitAt a

/-- 41_pack_unpack.md R127: the bit step of UNPACK, and what its eight bit steps on one byte add up to: a byte that does
not depend on the old one. -/
def Obligations.UnpackBitStepMovesOneBit : Prop :=
  (∀ s : State, s.busy = true → s.op = 2#8 → s.idx.toNat < s.cnt.toNat → s.idx.toNat < s.bitCap →
    ∃ t, sequencerTurn s = .next t ∧ t = { s with pay := t.pay, idx := s.idx + 1#32 } ∧
      t.payAt (s.idx.toNat / 8) =
        (s.payAt (s.idx.toNat / 8) &&& ~~~(0x80#8 >>> (s.idx.toNat % 8))) |||
          ((s.bitAt s.idx.toNat).setWidth 8 <<< (7 - s.idx.toNat % 8)) ∧
      ∀ a, a ≠ s.idx.toNat / 8 → t.payAt a = s.payAt a) ∧
  ∀ (s : State) (j : Nat), j < s.payCap →
    ∃ t, (List.range 8).foldl (fun o k => o.bind (bodyUnpack (8 * j + k))) (some s) = some t ∧
      t = { s with pay := t.pay } ∧ (∀ a, a ≠ j → t.payAt a = s.payAt a) ∧
      (t.payAt j).toNat =
        (s.bitAt (8 * j)).toNat * 128 + (s.bitAt (8 * j + 1)).toNat * 64 + (s.bitAt (8 * j + 2)).toNat * 32 +
        (s.bitAt (8 * j + 3)).toNat * 16 + (s.bitAt (8 * j + 4)).toNat * 8 + (s.bitAt (8 * j + 5)).toNat * 4 +
        (s.bitAt (8 * j + 6)).toNat * 2 + (s.bitAt (8 * j + 7)).toNat

/-- 42_inject.md R142: the bit step of INJECT. -/
def Obligations.InjectBitStepMovesOneBit : Prop :=
  ∀ s : State, s.busy = true → s.op = 3#8 → s.idx.toNat < s.cnt.toNat → s.idx.toNat < s.bitCap →
    s.idx.toNat < s.hostCap →
    ∃ t, sequencerTurn s = .next t ∧ t = { s with host := t.host, idx := s.idx + 1#32 } ∧
      t.hostAt s.idx.toNat = (s.hostAt s.idx.toNat &&& 0xFE#8) ||| (s.bitAt s.idx.toNat).setWidth 8 ∧
      ∀ a, a ≠ s.idx.toNat → t.hostAt a = s.hostAt a

/-- 43_extract.md R163 and R167: the bit step of EXTRACT and EXTRACTL. -/
def Obligations.ExtractBitStepMovesOneBit : Prop :=
  ∀ s : State, s.busy = true → (s.op = 4#8 ∨ s.op = 5#8) → s.idx.toNat < s.cnt.toNat → s.idx.toNat < s.bitCap →
    s.idx.toNat < s.hostCap →
    ∃ t, sequencerTurn s = .next t ∧ t = { s with bits := t.bits, idx := s.idx + 1#32 } ∧
      t.bitAt s.idx.toNat = (s.hostAt s.idx.toNat &&& 1#8).setWidth 1 ∧
      ∀ a, a ≠ s.idx.toNat → t.bitAt a = s.bitAt a

/-- 40_sequencer.md R109: the finish step, after which the sequencer has no enabled step. -/
def Obligations.FinishStepWritesLengthAndStatus : Prop :=
  (∀ s : State, s.busy = true → legalStatus s.status → s.idx = s.cnt →
    (s.op = 1#8 ∨ s.op = 4#8 ∨ s.op = 5#8 →
      sequencerTurn s = .next { s with blen := s.cnt, status := 0x00000002#32 }) ∧
    (s.op = 2#8 → sequencerTurn s = .next { s with plen := s.cnt / 8#32, status := 0x00000002#32 }) ∧
    (s.op = 3#8 → sequencerTurn s = .next { s with status := 0x00000002#32 })) ∧
  ∀ s : State, s.status = 0x00000002#32 → sequencerTurn s = .next s

/-- 40_sequencer.md R110: a running command takes one bit step for every index from IDX to CNT and then one finish step;
before that step it is busy, after it it is not. -/
def Obligations.RunningCommandEndsAfterItsCount : Prop :=
  ∀ s : State, Inv s → s.busy = true → s.schedule = [] →
    (∀ k, s.idx.toNat + k ≤ s.cnt.toNat →
      ∃ t, core.run k s = .next t ∧ t.busy = true ∧ t.idx.toNat = s.idx.toNat + k ∧ t.cnt = s.cnt) ∧
    ∃ t, core.run (s.cnt.toNat - s.idx.toNat + 1) s = .next t ∧ t.status = 0x00000002#32 ∧ t.idx = s.cnt

/-- 40_sequencer.md R111: a command that starts, taken one sequencer step at a time with any host transactions in
between, ends in the state of the whole command taken as one step. -/
def Obligations.StepwiseCommandEqualsWholeCommand : Prop :=
  ∀ (c : Instr) (s : State) (turns rest : List Turn),
    s.capacitiesOk → starts c s →
    (∀ t ∈ turns, quietTurn s t = true) →
    turns.count .sequencer = countOf c s →
    ∃ u v, core.run (turns.length + 1) { issue (encode c) s with schedule := turns ++ .sequencer :: rest } = .next u ∧
      exec c s = .next v ∧ u.block = v.block ∧ u.schedule = rest

/-- 20_memory.md R63: the bit steps of a command may be done in any order; two of them commute. -/
def Obligations.BitStepsOfACommandCommute : Prop :=
  ∀ (c : Instr) (s : State) (i j : Nat), i ≠ j →
    (bodyOf c i s).bind (bodyOf c j) = (bodyOf c j s).bind (bodyOf c i)

/-! ### The five commands -/

/-- 41_pack_unpack.md R122: PACK. -/
def Obligations.PackPacksPayload : Prop :=
  ∀ s : State, s.capacitiesOk → s.busy = false →
    (s.plen.toNat ≤ s.payCap → ∃ t, exec .pack s = .next t ∧
      t = { s with
        bits := t.bits, blen := BitVec.ofNat 32 (8 * s.plen.toNat), cmd := 0x00000001#32, status := 0x00000002#32,
        idx := BitVec.ofNat 32 (8 * s.plen.toNat), op := 1#8, cnt := BitVec.ofNat 32 (8 * s.plen.toNat) } ∧
      t.blen.toNat = 8 * s.plen.toNat ∧
      t.bitRange (8 * s.plen.toNat) = packBytes (s.payRange s.plen.toNat) ∧
      (∀ i < 8 * s.plen.toNat, t.bitAt i = ((s.payAt (i / 8) >>> (7 - i % 8)) &&& 1#8).setWidth 1) ∧
      ∀ a, 8 * s.plen.toNat ≤ a → t.bitAt a = s.bitAt a) ∧
    (s.payCap < s.plen.toNat →
      exec .pack s = .next { s with cmd := 0x00000001#32, status := 0x00000036#32, idx := 0#32 })

/-- 41_pack_unpack.md R126: UNPACK. -/
def Obligations.UnpackUnpacksBits : Prop :=
  ∀ s : State, s.capacitiesOk → s.busy = false →
    (s.blen.toNat ≤ s.bitCap → ∃ t, exec .unpack s = .next t ∧
      t = { s with
        pay := t.pay, plen := BitVec.ofNat 32 (s.blen.toNat / 8), cmd := 0x00000002#32, status := 0x00000002#32,
        idx := BitVec.ofNat 32 (8 * (s.blen.toNat / 8)), op := 2#8,
        cnt := BitVec.ofNat 32 (8 * (s.blen.toNat / 8)) } ∧
      t.plen.toNat = s.blen.toNat / 8 ∧
      t.payRange (s.blen.toNat / 8) = unpackBits (s.bitRange s.blen.toNat) ∧
      (∀ j < s.blen.toNat / 8, (t.payAt j).toNat =
        (s.bitAt (8 * j)).toNat * 128 + (s.bitAt (8 * j + 1)).toNat * 64 + (s.bitAt (8 * j + 2)).toNat * 32 +
        (s.bitAt (8 * j + 3)).toNat * 16 + (s.bitAt (8 * j + 4)).toNat * 8 + (s.bitAt (8 * j + 5)).toNat * 4 +
        (s.bitAt (8 * j + 6)).toNat * 2 + (s.bitAt (8 * j + 7)).toNat) ∧
      ∀ a, s.blen.toNat / 8 ≤ a → t.payAt a = s.payAt a) ∧
    (s.bitCap < s.blen.toNat →
      exec .unpack s = .next { s with cmd := 0x00000002#32, status := 0x00000036#32, idx := 0#32 })

/-- 42_inject.md R141: INJECT. -/
def Obligations.InjectOverwritesLsbs : Prop :=
  ∀ s : State, s.busy = false →
    (s.blen.toNat ≤ s.hlen.toNat → s.hlen.toNat ≤ s.hostCap → s.blen.toNat ≤ s.bitCap →
      ∃ t, exec .inject s = .next t ∧
      t = { s with
        host := t.host, cmd := 0x00000003#32, status := 0x00000002#32, idx := s.blen, op := 3#8, cnt := s.blen } ∧
      injectBits (s.hostRange s.hlen.toNat) (s.bitRange s.blen.toNat) = some (t.hostRange s.hlen.toNat) ∧
      (∀ i < s.blen.toNat, t.hostAt i = (s.hostAt i &&& 0xFE#8) ||| (s.bitAt i).setWidth 8) ∧
      ∀ a, s.blen.toNat ≤ a → t.hostAt a = s.hostAt a) ∧
    (s.bitCap < s.blen.toNat ∨ s.hostCap < s.hlen.toNat →
      exec .inject s = .next { s with cmd := 0x00000003#32, status := 0x00000036#32, idx := 0#32 }) ∧
    (s.blen.toNat ≤ s.bitCap → s.hlen.toNat ≤ s.hostCap → s.hlen.toNat < s.blen.toNat →
      exec .inject s = .next { s with cmd := 0x00000003#32, status := 0x00000016#32, idx := 0#32 })

/-- 43_extract.md R162: EXTRACT. -/
def Obligations.ExtractReadsEveryLsb : Prop :=
  ∀ s : State, s.capacitiesOk → s.busy = false →
    (s.hlen.toNat ≤ s.hostCap → ∃ t, exec .extract s = .next t ∧
      t = { s with
        bits := t.bits, blen := s.hlen, cmd := 0x00000004#32, status := 0x00000002#32, idx := s.hlen, op := 4#8,
        cnt := s.hlen } ∧
      extractBits (s.hostRange s.hlen.toNat) s.hlen.toNat = some (t.bitRange s.hlen.toNat) ∧
      (∀ i < s.hlen.toNat, t.bitAt i = (s.hostAt i &&& 1#8).setWidth 1) ∧
      ∀ a, s.hlen.toNat ≤ a → t.bitAt a = s.bitAt a) ∧
    (s.hostCap < s.hlen.toNat →
      exec .extract s = .next { s with cmd := 0x00000004#32, status := 0x00000036#32, idx := 0#32 })

/-- 43_extract.md R166: EXTRACTL. -/
def Obligations.ExtractlReadsABoundedPrefix : Prop :=
  ∀ s : State, s.capacitiesOk → s.busy = false →
    (s.hlen.toNat ≤ s.hostCap → ∃ t n, n = min s.hlen.toNat s.limit.toNat ∧ exec .extractl s = .next t ∧
      t = { s with
        bits := t.bits, blen := BitVec.ofNat 32 n, cmd := 0x00000005#32, status := 0x00000002#32,
        idx := BitVec.ofNat 32 n, op := 5#8, cnt := BitVec.ofNat 32 n } ∧
      t.blen.toNat = n ∧
      extractBits (s.hostRange s.hlen.toNat) n = some (t.bitRange n) ∧
      (∀ i < n, t.bitAt i = (s.hostAt i &&& 1#8).setWidth 1) ∧
      ∀ a, n ≤ a → t.bitAt a = s.bitAt a) ∧
    (s.hostCap < s.hlen.toNat →
      exec .extractl s = .next { s with cmd := 0x00000005#32, status := 0x00000036#32, idx := 0#32 })

/-- The frame of PACK, EXTRACT and EXTRACTL (10_state.md R38), in every state in which they answer a next state: they
store to BIT below their count, and write BLEN, CMD, STATUS, IDX, OP and CNT; all the rest, and every other cell, is
unchanged. -/
def Obligations.BitWritingCommandsFrame : Prop :=
  ∀ (c : Instr) (s t : State), (c = .pack ∨ c = .extract ∨ c = .extractl) → exec c s = .next t →
    t = { s with
      bits := t.bits, blen := t.blen, cmd := t.cmd, status := t.status, idx := t.idx, op := t.op, cnt := t.cnt } ∧
    (∀ a, t.readHost a = s.readHost a) ∧ (∀ a, t.readPay a = s.readPay a) ∧
    ∀ a, countOf c s ≤ a → t.readBit a = s.readBit a

/-- The frame of UNPACK (10_state.md R38): it stores to PAY below `BLEN div 8`, and writes PLEN, CMD, STATUS, IDX, OP
and CNT. -/
def Obligations.UnpackFrame : Prop :=
  ∀ s t : State, exec .unpack s = .next t →
    t = { s with
      pay := t.pay, plen := t.plen, cmd := t.cmd, status := t.status, idx := t.idx, op := t.op, cnt := t.cnt } ∧
    (∀ a, t.readHost a = s.readHost a) ∧ (∀ a, t.readBit a = s.readBit a) ∧
    ∀ a, s.blen.toNat / 8 ≤ a → t.readPay a = s.readPay a

/-- The frame of INJECT (10_state.md R38; 42_inject.md R145 (b), (d)): it stores to HOST below BLEN, bit 0 of each byte
only, and writes CMD, STATUS, IDX, OP and CNT. -/
def Obligations.InjectFrame : Prop :=
  ∀ s t : State, exec .inject s = .next t →
    t = { s with host := t.host, cmd := t.cmd, status := t.status, idx := t.idx, op := t.op, cnt := t.cnt } ∧
    (∀ a, t.readPay a = s.readPay a) ∧ (∀ a, t.readBit a = s.readBit a) ∧
    (∀ a, s.blen.toNat ≤ a → t.readHost a = s.readHost a) ∧
    ∀ a, (t.hostAt a).extractLsb' 1 7 = (s.hostAt a).extractLsb' 1 7

/-- 42_inject.md R143: the capacity check is strict: a BLEN of at most HLEN succeeds, equality included, and every BLEN
above HLEN, by one bit or more, fails with CapacityError and leaves HOST as it was; nothing at or above HLEN is written. -/
def Obligations.CapacityCheckIsStrict : Prop :=
  ∀ s : State, s.busy = false → s.hlen.toNat ≤ s.hostCap → s.blen.toNat ≤ s.bitCap →
    (s.blen.toNat ≤ s.hlen.toNat → ∃ t, exec .inject s = .next t ∧ t.status = 0x00000002#32 ∧
      (∀ i < s.blen.toNat, lsb (t.hostAt i) = s.bitAt i) ∧ ∀ a, s.hlen.toNat ≤ a → t.hostAt a = s.hostAt a) ∧
    (s.hlen.toNat < s.blen.toNat → ∃ t, exec .inject s = .next t ∧ t.status = 0x00000016#32 ∧
      ∀ a, t.hostAt a = s.hostAt a)

/-- 43_extract.md R165: EXTRACT and EXTRACTL leave every HOST cell as it was, and repeated they give the same BIT. -/
def Obligations.ExtractionKeepsHostAndRepeats : Prop :=
  ∀ (c : Instr) (s t : State), (c = .extract ∨ c = .extractl) → exec c s = .next t →
    (∀ a, t.hostAt a = s.hostAt a) ∧ ∀ u, exec c t = .next u → ∀ a, u.hostAt a = s.hostAt a ∧ u.bitAt a = t.bitAt a

/-- 43_extract.md R168 (b): with `LIMIT >= HLEN`, EXTRACTL has the effect of EXTRACT; only CMD and OP tell them apart. -/
def Obligations.ExtractlWithLargeLimitIsExtract : Prop :=
  ∀ s : State, s.capacitiesOk → s.busy = false → s.hlen.toNat ≤ s.limit.toNat → s.hlen.toNat ≤ s.hostCap →
    ∃ t u, exec .extract s = .next t ∧ exec .extractl s = .next u ∧
      u = { t with cmd := 0x00000005#32, op := 5#8 }

/-- 42_inject.md R144 (g): a second INJECT on the end state of the first changes nothing. -/
def Obligations.InjectTwiceIsInjectOnce : Prop :=
  ∀ s t u : State, s.busy = false → overCapacityOf .inject s = false → inRangeOf .inject s = true →
    exec .inject s = .next t → exec .inject t = .next u → u = t

/-- 70_reset_and_hazards.md R233: with all lengths 0, as after reset, every command takes only its finish step, ends
without error and changes no cell. -/
def Obligations.ZeroLengthCommandOnlyFinishes : Prop :=
  ∀ (c : Instr) (s : State), s.busy = false → s.hlen = 0#32 → s.plen = 0#32 → s.blen = 0#32 →
    exec c s = .next { s with
      cmd := encode c, status := 0x00000002#32, idx := 0#32, op := opcodeOf c, cnt := 0#32 } ∧
    core.run 2 { s with schedule := [.host (.regWrite 0 (encode c))] } = .next { s with
      cmd := encode c, status := 0x00000002#32, idx := 0#32, op := opcodeOf c, cnt := 0#32, schedule := [] }

/-! ### Errors -/

/-- 60_exceptions.md R207: a command that raises an error changes CMD, STATUS and IDX and nothing else. -/
def Obligations.FailingCommandChangesNothingElse : Prop :=
  ∀ (w : Word) (s : State), s.busy = false → (issue w s).err = true →
    issue w s = { s with cmd := w, idx := 0#32, status := (issue w s).status } ∧
      (issue w s).status ∈ [0x16#32, 0x26#32, 0x36#32] ∧
      commandTurn w s = .next (issue w s)

/-- 60_exceptions.md R205: at most one error, IllegalCommand before BoundsError before CapacityError; a reset wins over
everything, whatever the block is doing. -/
def Obligations.FirstApplicableErrorIsReported : Prop :=
  (∀ (w : Word) (s : State), s.busy = false →
    ((∀ c, decode w ≠ .ok c) → (issue w s).cause = 2#4) ∧
    (∀ c, decode w = .ok c → inRangeOf c s = false → (issue w s).cause = 3#4) ∧
    (∀ c, decode w = .ok c → inRangeOf c s = true → overCapacityOf c s = true → (issue w s).cause = 1#4) ∧
    (∀ c, decode w = .ok c → inRangeOf c s = true → overCapacityOf c s = false → (issue w s).cause = 0#4) ∧
    (decode w = .ok .inject → s.bitCap < s.blen.toNat → s.hlen.toNat < s.blen.toNat → (issue w s).cause = 3#4)) ∧
  ∀ (s : State) (rest : List Turn), s.schedule = .reset :: rest → ∃ t, step s = .next t ∧ t.status = 0x00000000#32

/-- 60_exceptions.md R206: the error entry after the first lines of a command issue: DONE and ERR are 1, CAUSE is the
code, BUSY is 0, and nothing else is written. -/
def Obligations.ErrorEntryWritesDoneErrCause : Prop :=
  ∀ (e : ErrorCause) (w : Word) (s : State),
    raise e (latchCommand w s) = { s with
      cmd := w, idx := 0#32,
      status := match e with
        | .capacity => 0x00000016#32
        | .illegalCommand => 0x00000026#32
        | .bounds => 0x00000036#32 }

/-- 60_exceptions.md R208: the error indication stays until the next command issue or a reset, and the next command
issue does not depend on it. -/
def Obligations.ErrorStaysUntilNextIssueOrReset : Prop :=
  (∀ s t : State, s.busy = false → step s = .next t →
    t.status = s.status ∨ (∃ w rest, s.schedule = .host (.regWrite 0 w) :: rest) ∨
      (∃ w rest, s.schedule = .command w :: rest) ∨ ∃ rest, s.schedule = .reset :: rest) ∧
  ∀ (w st : Word) (s : State), issue w { s with status := st } = issue w s

/-! ### Reset and the invariant -/

/-- 10_state.md R37, 70_reset_and_hazards.md R230, R232: a reset, in any state, idle or busy, puts every register at its
reset value. The model's choices: the schedule goes on (log 12), and what each cell then holds is the free value of the
new reset (log 2), where the rules say only that it is unspecified. -/
def Obligations.ResetPutsRegistersAtResetValues : Prop :=
  ∀ (s : State) (rest : List Turn), s.schedule = .reset :: rest →
    ∃ t, step s = .next t ∧ t.schedule = rest ∧
      t.cmd = 0#32 ∧ t.status = 0#32 ∧ t.hlen = 0#32 ∧ t.plen = 0#32 ∧ t.blen = 0#32 ∧ t.limit = 0#32 ∧ t.idx = 0#32 ∧
      t.hcap = s.hcap ∧ t.pcap = s.pcap ∧ t.op = 0#8 ∧ t.cnt = 0#32 ∧
      (∀ a, t.hostAt a = Config.hostPowerUp (s.epoch + 1) a) ∧
      (∀ a, t.payAt a = Config.payPowerUp (s.epoch + 1) a) ∧
      ∀ a, t.bitAt a = Config.bitPowerUp (s.epoch + 1) a

/-- The reset state meets the invariant. Its capacities, 64 and 8, are the model's choice (log 1), those of the spec's
test instance. -/
def Obligations.ResetMeetsInv : Prop := Inv State.reset

/-- 10_state.md R36: every step keeps the invariant, from every state that meets it. -/
def Obligations.StepKeepsInv : Prop := ∀ s t : State, Inv s → step s = .next t → Inv t

/-- From a state that meets the invariant no step faults: no command of a reachable state names a cell that does not
exist or is stuck (40_sequencer.md R107, R110), and a step is refused only for a transaction that is not admitted. -/
def Obligations.StepFromInvNeverFaults : Prop :=
  ∀ s : State, Inv s → faultFree (step s) ∧
    ∀ r, step s = .refused r → ∃ t rest, s.schedule = .host t :: rest ∧ admitted s t = false

/-- 10_state.md R33, R36 (e): no step changes HCAP or PCAP. -/
def Obligations.CapacitiesNeverChange : Prop :=
  ∀ s t : State, step s = .next t → t.hcap = s.hcap ∧ t.pcap = s.pcap

/-- A step runs the decoded command: when the next turn carries a word that decodes to `c`, the step is `exec c` on the
state without that turn; when it is a host write to CMD, the step is the command issue; a busy block with no turn takes
a sequencer step, an idle one stays. -/
def Obligations.StepRunsDecodedCommand : Prop :=
  (∀ (s : State) (w : Word) (c : Instr) (rest : List Turn), s.schedule = .command w :: rest → decode w = .ok c →
    step s = exec c { s with schedule := rest }) ∧
  (∀ (s : State) (nbits w : Nat) (c : Instr), decodeTableWord nbits w = some c →
    step (s.withFetchWord nbits w) = exec c s) ∧
  (∀ (s : State) (t : Transaction) (rest : List Turn), s.schedule = .host t :: rest →
    step s = transact t { s with schedule := rest }) ∧
  ∀ s : State, s.schedule = [] → step s = if s.busy then sequencerStep s else .next s

/-! ### The four functions -/

/-- 41_pack_unpack.md R120: pack. -/
def Obligations.PackFunctionIsMsbFirst : Prop :=
  (∀ ps : List Byte, (packBytes ps).length = 8 * ps.length) ∧
  (∀ (ps : List Byte) (j k : Nat), k < 8 → (packBytes ps)[8 * j + k]? =
    ps[j]?.map fun p : Byte => ((p >>> (7 - k)) &&& 1#8).setWidth 1) ∧
  packBytes [] = [] ∧ (∀ ps qs, packBytes (ps ++ qs) = packBytes ps ++ packBytes qs) ∧
  packBytes [0xA5#8] = [1#1, 0#1, 1#1, 0#1, 0#1, 1#1, 0#1, 1#1]

/-- 41_pack_unpack.md R121: unpack. -/
def Obligations.UnpackFunctionIsMsbFirst : Prop :=
  unpackBits [0#1, 1#1, 0#1, 0#1, 1#1, 0#1, 0#1, 0#1, 1#1, 0#1, 1#1] = [0x48#8] ∧
  ∀ bs : List Bit, (unpackBits bs).length = bs.length / 8 ∧
    ∀ j < bs.length / 8, ∀ b : Nat → Bit, (∀ k < 8, bs[8 * j + k]? = some (b k)) →
      ∃ p, (unpackBits bs)[j]? = some p ∧ p.toNat =
        (b 0).toNat * 128 + (b 1).toNat * 64 + (b 2).toNat * 32 + (b 3).toNat * 16 + (b 4).toNat * 8 +
        (b 5).toNat * 4 + (b 6).toNat * 2 + (b 7).toNat

/-- 41_pack_unpack.md R125 (a) to (e): the laws of the pair. -/
def Obligations.LawsOfPackAndUnpack : Prop :=
  (∀ ps : List Byte, unpackBits (packBytes ps) = ps) ∧
  (∀ ps : List Byte, (packBytes ps).length = 8 * ps.length) ∧
  (∀ bs : List Bit, (unpackBits bs).length = bs.length / 8) ∧
  (∀ bs : List Bit, packBytes (unpackBits bs) = bs.take (8 * (bs.length / 8))) ∧
  (∀ bs ts : List Bit, 8 ∣ bs.length → ts.length < 8 → unpackBits (bs ++ ts) = unpackBits bs) ∧
  ∀ bs cs : List Bit, 8 ∣ bs.length → unpackBits (bs ++ cs) = unpackBits bs ++ unpackBits cs

/-- 42_inject.md R140 and R145: inject, and what it preserves. -/
def Obligations.InjectFunctionPreservesCarrier : Prop :=
  ∀ (hs : List Byte) (bs : List Bit),
    (injectBits hs bs = none ↔ hs.length < bs.length) ∧ injectBits hs [] = some hs ∧
    ∀ gs, injectBits hs bs = some gs →
      gs.length = hs.length ∧
      (∀ (i : Nat) (h : Byte) (b : Bit), hs[i]? = some h → bs[i]? = some b →
        ∃ g, gs[i]? = some g ∧ g = (h &&& 0xFE#8) ||| b.setWidth 8 ∧ lsb g = b) ∧
      (∀ i, bs.length ≤ i → gs[i]? = hs[i]?) ∧
      ∀ (i : Nat) (h g : Byte), hs[i]? = some h → gs[i]? = some g →
        g.extractLsb' 1 7 = h.extractLsb' 1 7 ∧ g.toNat ≤ h.toNat + 1 ∧ h.toNat ≤ g.toNat + 1

/-- 43_extract.md R169: the laws linking injection and extraction. -/
def Obligations.LawsOfInjectAndExtract : Prop :=
  (∀ (hs gs : List Byte) (bs : List Bit), injectBits hs bs = some gs →
    extractBits gs bs.length = some bs ∧
    ∃ all, extractBits hs hs.length = some all ∧
      extractBits gs gs.length = some (bs ++ all.drop bs.length)) ∧
  (∀ (hs gs ps : List Byte), 8 * ps.length ≤ hs.length → injectBits hs (packBytes ps) = some gs →
    (extractBits gs (8 * ps.length)).map unpackBits = some ps ∧
    ∃ tail, tail.length = (hs.length - 8 * ps.length) / 8 ∧
      (extractBits gs gs.length).map unpackBits = some (ps ++ tail) ∧
      (extractBits hs hs.length).map (fun all => unpackBits (all.drop (8 * ps.length))) = some tail) ∧
  ∀ (hs : List Byte) (n : Nat), n ≤ hs.length → (extractBits hs n).bind (injectBits hs) = some hs

/-! ### Scripts -/

/-- 41_pack_unpack.md R125 (f): PACK then UNPACK gives the payload back, at any pace of the two `wait` lines (logs 4
and 7). -/
def Obligations.PackThenUnpackRestoresPayload : Prop :=
  ∀ (s : State) (p q : List Nat) (rest : List Turn), Inv s → s.busy = false → s.plen.toNat ≤ s.payCap →
    s.schedule = scriptCmd .pack ++ scriptWait p ++ scriptCmd .unpack ++ scriptWait q ++ rest →
    ∃ k t, core.run k s = .next t ∧ t.schedule = rest ∧ t.status = 0x00000002#32 ∧
      t.plen = s.plen ∧ t.blen.toNat = 8 * s.plen.toNat ∧ (∀ a, t.payAt a = s.payAt a)

/-- 44_host_sequences.md R180: EMBED, at any pace of its `wait` lines (logs 4 and 7). Its last line reads the STATUS of
INJECT, or of the error of INJECT, and stops nothing; that the stop after an error of PACK ends no more than EMBED is the
model's choice (log 8). -/
def Obligations.EmbedInjectsThePackedPayload : Prop :=
  ∀ (s : State) (p q : List Nat) (rest : List Turn), Inv s → s.busy = false → s.schedule = scriptEmbed p q ++ rest →
    (s.plen.toNat ≤ s.payCap → s.hlen.toNat ≤ s.hostCap → 8 * s.plen.toNat ≤ s.hlen.toNat →
      ∃ k t, core.run k s = .next t ∧ t.schedule = rest ∧ t.status = 0x00000002#32 ∧
        t.replies.head? = some (.word 0x00000002#32) ∧
        injectBits (s.hostRange s.hlen.toNat) (packBytes (s.payRange s.plen.toNat)) = some (t.hostRange s.hlen.toNat) ∧
        t.bitRange (8 * s.plen.toNat) = packBytes (s.payRange s.plen.toNat) ∧
        t.blen.toNat = 8 * s.plen.toNat ∧ (∀ a, t.payAt a = s.payAt a) ∧ t.plen = s.plen ∧ t.hlen = s.hlen) ∧
    (s.payCap < s.plen.toNat →
      ∃ k t, core.run k s = .next t ∧ t.schedule = rest ∧ t.replies.head? = some (.word 0x00000036#32) ∧
        t.block = { s.block with cmd := 0x00000001#32, status := 0x00000036#32, idx := 0#32 }) ∧
    (s.plen.toNat ≤ s.payCap → s.hlen.toNat ≤ s.hostCap → s.hlen.toNat < 8 * s.plen.toNat →
      ∃ k t, core.run k s = .next t ∧ t.schedule = rest ∧ t.status = 0x00000016#32 ∧
        t.replies.head? = some (.word 0x00000016#32) ∧ (∀ a, t.hostAt a = s.hostAt a) ∧
        t.bitRange (8 * s.plen.toNat) = packBytes (s.payRange s.plen.toNat) ∧ t.blen.toNat = 8 * s.plen.toNat) ∧
    (s.plen.toNat ≤ s.payCap → s.hostCap < s.hlen.toNat →
      ∃ k t, core.run k s = .next t ∧ t.schedule = rest ∧ t.status = 0x00000036#32 ∧
        t.replies.head? = some (.word 0x00000036#32) ∧ (∀ a, t.hostAt a = s.hostAt a) ∧
        t.bitRange (8 * s.plen.toNat) = packBytes (s.payRange s.plen.toNat) ∧ t.blen.toNat = 8 * s.plen.toNat)

/-- 44_host_sequences.md R181: RECOVER, at any pace of its `wait` lines (logs 4 and 7). That the stop after an error of
EXTRACT ends no more than RECOVER is the model's choice (log 8). -/
def Obligations.RecoverUnpacksEveryLsb : Prop :=
  ∀ (s : State) (p q : List Nat) (rest : List Turn), Inv s → s.busy = false → s.schedule = scriptRecover p q ++ rest →
    (s.hlen.toNat ≤ s.hostCap →
      ∃ k t bs, core.run k s = .next t ∧ t.schedule = rest ∧ t.status = 0x00000002#32 ∧
        extractBits (s.hostRange s.hlen.toNat) s.hlen.toNat = some bs ∧
        t.bitRange s.hlen.toNat = bs ∧ t.blen = s.hlen ∧
        t.payRange (s.hlen.toNat / 8) = unpackBits bs ∧ t.plen.toNat = s.hlen.toNat / 8 ∧ ∀ a, t.hostAt a = s.hostAt a) ∧
    (s.hostCap < s.hlen.toNat →
      ∃ k t, core.run k s = .next t ∧ t.schedule = rest ∧
        t.block = { s.block with cmd := 0x00000004#32, status := 0x00000036#32, idx := 0#32 })

/-- 44_host_sequences.md R182: RECOVERN n, at any pace of its `wait` lines (logs 4 and 7), and the exact round trip of the
source. That the stop after an error of EXTRACTL ends no more than RECOVERN is the model's choice (log 8). -/
def Obligations.RecoverNIsTheExactRoundTrip : Prop :=
  ∀ (s : State) (n : Word) (p q : List Nat) (rest : List Turn), Inv s → s.busy = false →
    s.schedule = scriptRecoverN n p q ++ rest →
    (s.hlen.toNat ≤ s.hostCap →
      ∃ k t m bs, m = min s.hlen.toNat n.toNat ∧ core.run k s = .next t ∧ t.schedule = rest ∧
        t.status = 0x00000002#32 ∧ t.limit = n ∧
        extractBits (s.hostRange s.hlen.toNat) m = some bs ∧ t.bitRange m = bs ∧ t.blen.toNat = m ∧
        t.payRange (m / 8) = unpackBits bs ∧ t.plen.toNat = m / 8 ∧ (∀ a, t.hostAt a = s.hostAt a) ∧
        ∀ (hs : List Byte) (ps : List Byte), n.toNat = 8 * ps.length → 8 * ps.length ≤ s.hlen.toNat →
          injectBits hs (packBytes ps) = some (s.hostRange s.hlen.toNat) → t.payRange t.plen.toNat = ps) ∧
    (s.hostCap < s.hlen.toNat →
      ∃ k t, core.run k s = .next t ∧ t.schedule = rest ∧
        t.block = { s.block with limit := n, cmd := 0x00000005#32, status := 0x00000036#32, idx := 0#32 })

/-- 44_host_sequences.md R183, 40_sequencer.md R113: `wait`. While idle its first poll ends it. While busy it ends, at any
pace (logs 4 and 7), in the state the running command ends in, after some polls that read 0x00000001 and one that reads
0x00000002; and for every number of polls that read 0x00000001 there is a pace that takes exactly that many. -/
def Obligations.WaitEndsAtFirstIdlePoll : Prop :=
  ∀ (s : State) (rest : List Turn), Inv s →
    (s.busy = false → ∀ pace : List Nat, ∃ k, core.run k { s with schedule := scriptWait pace ++ rest } =
      .next { s with schedule := rest, replies := .word s.status :: s.replies }) ∧
    (s.busy = true → ∃ (j : Nat) (done : State),
      core.run j { s with schedule := [] } = .next done ∧ done.status = 0x00000002#32 ∧
      (∀ pace : List Nat, ∃ k n, core.run k { s with schedule := scriptWait pace ++ rest } = .next { done with
        schedule := rest
        replies := .word 0x00000002#32 :: (List.replicate n (.word 0x00000001#32) ++ s.replies) }) ∧
      ∀ n : Nat, ∃ (pace : List Nat) (k : Nat), core.run k { s with schedule := scriptWait pace ++ rest } =
        .next { done with
          schedule := rest
          replies := .word 0x00000002#32 :: (List.replicate n (.word 0x00000001#32) ++ s.replies) })
end

