-- ==== Sys2Proof/Laws/Bits.lean ====
section
/-! SUPPORT. The bit primitives of 00_scope.md R12 and the byte that eight bits stand for; the source's functions on
sequences. -/

namespace Sys2Proof.Machine

/-- `lsb` reads what `setlsb` wrote. -/
@[simp] theorem lsb_setlsb : ∀ (h : Byte) (b : Bit), lsb (setlsb h b) = b := by decide +kernel

/-- `setlsb` keeps bits 7 to 1. -/
theorem setlsb_high : ∀ (h : Byte) (b : Bit), (setlsb h b).extractLsb' 1 7 = h.extractLsb' 1 7 := by decide +kernel

/-- A second `setlsb` replaces the first. -/
@[simp] theorem setlsb_setlsb : ∀ (h : Byte) (b c : Bit), setlsb (setlsb h b) c = setlsb h c := by decide +kernel

/-- Writing back the bit just read changes nothing. -/
@[simp] theorem setlsb_lsb : ∀ h : Byte, setlsb h (lsb h) = h := by decide +kernel

/-- The byte whose bits are the bits of `p` is `p`. -/
@[simp] theorem byteOfBits_msbbit : ∀ p : Byte,
    byteOfBits (msbbit p 0) (msbbit p 1) (msbbit p 2) (msbbit p 3) (msbbit p 4) (msbbit p 5) (msbbit p 6) (msbbit p 7) = p := by
  decide +kernel

/-- The bits of the byte that eight bits stand for are those bits. -/
@[simp] theorem packByte_byteOfBits : ∀ b0 b1 b2 b3 b4 b5 b6 b7 : Bit,
    packByte (byteOfBits b0 b1 b2 b3 b4 b5 b6 b7) = [b0, b1, b2, b3, b4, b5, b6, b7] := by
  decide +kernel

/-- The weights of the eight bits of a byte, the first one most significant. -/
theorem byteOfBits_toNat : ∀ b0 b1 b2 b3 b4 b5 b6 b7 : Bit,
    (byteOfBits b0 b1 b2 b3 b4 b5 b6 b7).toNat =
      b0.toNat * 128 + b1.toNat * 64 + b2.toNat * 32 + b3.toNat * 16 + b4.toNat * 8 + b5.toNat * 4 + b6.toNat * 2 + b7.toNat := by
  decide +kernel

/-- `putbit(h, k, b)` sets the k-th bit from the top and keeps the other seven. -/
theorem msbbit_putbit (h : Byte) (b : Bit) {k j : Nat} (hk : k < 8) (hj : j < 8) :
    msbbit (putbit h k b) j = if j = k then b else msbbit h j := by
  have key : ∀ (h : Byte) (b : Bit) (k j : Fin 8),
      msbbit (putbit h k.val b) j.val = if j.val = k.val then b else msbbit h j.val := by decide +kernel
  exact key h b ⟨k, hk⟩ ⟨j, hj⟩

/-- The eight bits of a byte determine it. -/
theorem byte_ext {p q : Byte} (h : ∀ j < 8, msbbit p j = msbbit q j) : p = q := by
  rw [← byteOfBits_msbbit p, ← byteOfBits_msbbit q, h 0 (by omega), h 1 (by omega), h 2 (by omega), h 3 (by omega),
    h 4 (by omega), h 5 (by omega), h 6 (by omega), h 7 (by omega)]

/-- Eight `putbit`s, one for each bit, leave nothing of the old byte (41_pack_unpack.md R127). -/
theorem putbit_eight (p : Byte) (b0 b1 b2 b3 b4 b5 b6 b7 : Bit) :
    putbit (putbit (putbit (putbit (putbit (putbit (putbit (putbit p 0 b0) 1 b1) 2 b2) 3 b3) 4 b4) 5 b5) 6 b6) 7 b7
      = byteOfBits b0 b1 b2 b3 b4 b5 b6 b7 := by
  have hb := packByte_byteOfBits b0 b1 b2 b3 b4 b5 b6 b7
  simp only [packByte, List.cons.injEq, and_true] at hb
  obtain ⟨e0, e1, e2, e3, e4, e5, e6, e7⟩ := hb
  refine byte_ext fun j hj => ?_
  simp only [msbbit_putbit, hj, Nat.reduceLT]
  interval_cases j <;> simp [*]

/-! ### Sequences -/

@[simp] theorem packByte_length (p : Byte) : (packByte p).length = 8 := rfl

@[simp] theorem packBytes_length (ps : List Byte) : (packBytes ps).length = 8 * ps.length := by
  induction ps with
  | nil => rfl
  | cons p ps ih => simp only [packBytes, List.length_append, packByte_length, ih, List.length_cons]; omega

@[simp] theorem overwriteLsbs_nil (hs : List Byte) : overwriteLsbs hs [] = hs := by cases hs <;> rfl

@[simp] theorem overwriteLsbs_length (hs : List Byte) (bs : List Bit) : (overwriteLsbs hs bs).length = hs.length := by
  induction hs generalizing bs with
  | nil => rfl
  | cons h hs ih => cases bs <;> simp [overwriteLsbs, ih]

end Sys2Proof.Machine
end

