-- ==== Sys2Proof/Laws/State.lean ====
section
/-! SUPPORT. One lemma per field and per named update of the state, so that no later proof unfolds a record update. -/

namespace Sys2Proof.Machine

/-! ### latchCommand -/

@[simp] theorem latchCommand_host (w : Word) (s : State) : (latchCommand w s).host = s.host := rfl
@[simp] theorem latchCommand_pay (w : Word) (s : State) : (latchCommand w s).pay = s.pay := rfl
@[simp] theorem latchCommand_bits (w : Word) (s : State) : (latchCommand w s).bits = s.bits := rfl
@[simp] theorem latchCommand_cmd (w : Word) (s : State) : (latchCommand w s).cmd = w := rfl
@[simp] theorem latchCommand_status (w : Word) (s : State) : (latchCommand w s).status = 0#32 := rfl
@[simp] theorem latchCommand_hlen (w : Word) (s : State) : (latchCommand w s).hlen = s.hlen := rfl
@[simp] theorem latchCommand_plen (w : Word) (s : State) : (latchCommand w s).plen = s.plen := rfl
@[simp] theorem latchCommand_blen (w : Word) (s : State) : (latchCommand w s).blen = s.blen := rfl
@[simp] theorem latchCommand_limit (w : Word) (s : State) : (latchCommand w s).limit = s.limit := rfl
@[simp] theorem latchCommand_idx (w : Word) (s : State) : (latchCommand w s).idx = 0#32 := rfl
@[simp] theorem latchCommand_hcap (w : Word) (s : State) : (latchCommand w s).hcap = s.hcap := rfl
@[simp] theorem latchCommand_pcap (w : Word) (s : State) : (latchCommand w s).pcap = s.pcap := rfl
@[simp] theorem latchCommand_op (w : Word) (s : State) : (latchCommand w s).op = s.op := rfl
@[simp] theorem latchCommand_cnt (w : Word) (s : State) : (latchCommand w s).cnt = s.cnt := rfl
@[simp] theorem latchCommand_epoch (w : Word) (s : State) : (latchCommand w s).epoch = s.epoch := rfl
@[simp] theorem latchCommand_draws (w : Word) (s : State) : (latchCommand w s).draws = s.draws := rfl
@[simp] theorem latchCommand_schedule (w : Word) (s : State) : (latchCommand w s).schedule = s.schedule := rfl
@[simp] theorem latchCommand_replies (w : Word) (s : State) : (latchCommand w s).replies = s.replies := rfl

/-! ### raise -/

@[simp] theorem raise_host (e : ErrorCause) (s : State) : (raise e s).host = s.host := rfl
@[simp] theorem raise_pay (e : ErrorCause) (s : State) : (raise e s).pay = s.pay := rfl
@[simp] theorem raise_bits (e : ErrorCause) (s : State) : (raise e s).bits = s.bits := rfl
@[simp] theorem raise_cmd (e : ErrorCause) (s : State) : (raise e s).cmd = s.cmd := rfl
@[simp] theorem raise_status (e : ErrorCause) (s : State) : (raise e s).status = setCause (setErr (setDone s.status true) true) e.code := rfl
@[simp] theorem raise_hlen (e : ErrorCause) (s : State) : (raise e s).hlen = s.hlen := rfl
@[simp] theorem raise_plen (e : ErrorCause) (s : State) : (raise e s).plen = s.plen := rfl
@[simp] theorem raise_blen (e : ErrorCause) (s : State) : (raise e s).blen = s.blen := rfl
@[simp] theorem raise_limit (e : ErrorCause) (s : State) : (raise e s).limit = s.limit := rfl
@[simp] theorem raise_idx (e : ErrorCause) (s : State) : (raise e s).idx = s.idx := rfl
@[simp] theorem raise_hcap (e : ErrorCause) (s : State) : (raise e s).hcap = s.hcap := rfl
@[simp] theorem raise_pcap (e : ErrorCause) (s : State) : (raise e s).pcap = s.pcap := rfl
@[simp] theorem raise_op (e : ErrorCause) (s : State) : (raise e s).op = s.op := rfl
@[simp] theorem raise_cnt (e : ErrorCause) (s : State) : (raise e s).cnt = s.cnt := rfl
@[simp] theorem raise_epoch (e : ErrorCause) (s : State) : (raise e s).epoch = s.epoch := rfl
@[simp] theorem raise_draws (e : ErrorCause) (s : State) : (raise e s).draws = s.draws := rfl
@[simp] theorem raise_schedule (e : ErrorCause) (s : State) : (raise e s).schedule = s.schedule := rfl
@[simp] theorem raise_replies (e : ErrorCause) (s : State) : (raise e s).replies = s.replies := rfl

/-! ### start -/

@[simp] theorem start_host (o : BitVec 8) (n : Nat) (s : State) : (start o n s).host = s.host := rfl
@[simp] theorem start_pay (o : BitVec 8) (n : Nat) (s : State) : (start o n s).pay = s.pay := rfl
@[simp] theorem start_bits (o : BitVec 8) (n : Nat) (s : State) : (start o n s).bits = s.bits := rfl
@[simp] theorem start_cmd (o : BitVec 8) (n : Nat) (s : State) : (start o n s).cmd = s.cmd := rfl
@[simp] theorem start_status (o : BitVec 8) (n : Nat) (s : State) : (start o n s).status = setBusy s.status true := rfl
@[simp] theorem start_hlen (o : BitVec 8) (n : Nat) (s : State) : (start o n s).hlen = s.hlen := rfl
@[simp] theorem start_plen (o : BitVec 8) (n : Nat) (s : State) : (start o n s).plen = s.plen := rfl
@[simp] theorem start_blen (o : BitVec 8) (n : Nat) (s : State) : (start o n s).blen = s.blen := rfl
@[simp] theorem start_limit (o : BitVec 8) (n : Nat) (s : State) : (start o n s).limit = s.limit := rfl
@[simp] theorem start_idx (o : BitVec 8) (n : Nat) (s : State) : (start o n s).idx = s.idx := rfl
@[simp] theorem start_hcap (o : BitVec 8) (n : Nat) (s : State) : (start o n s).hcap = s.hcap := rfl
@[simp] theorem start_pcap (o : BitVec 8) (n : Nat) (s : State) : (start o n s).pcap = s.pcap := rfl
@[simp] theorem start_op (o : BitVec 8) (n : Nat) (s : State) : (start o n s).op = o := rfl
@[simp] theorem start_cnt (o : BitVec 8) (n : Nat) (s : State) : (start o n s).cnt = BitVec.ofNat 32 n := rfl
@[simp] theorem start_epoch (o : BitVec 8) (n : Nat) (s : State) : (start o n s).epoch = s.epoch := rfl
@[simp] theorem start_draws (o : BitVec 8) (n : Nat) (s : State) : (start o n s).draws = s.draws := rfl
@[simp] theorem start_schedule (o : BitVec 8) (n : Nat) (s : State) : (start o n s).schedule = s.schedule := rfl
@[simp] theorem start_replies (o : BitVec 8) (n : Nat) (s : State) : (start o n s).replies = s.replies := rfl

/-! ### endCommand -/

@[simp] theorem endCommand_host (s : State) : (endCommand s).host = s.host := rfl
@[simp] theorem endCommand_pay (s : State) : (endCommand s).pay = s.pay := rfl
@[simp] theorem endCommand_bits (s : State) : (endCommand s).bits = s.bits := rfl
@[simp] theorem endCommand_cmd (s : State) : (endCommand s).cmd = s.cmd := rfl
@[simp] theorem endCommand_status (s : State) : (endCommand s).status = setDone (setBusy s.status false) true := rfl
@[simp] theorem endCommand_hlen (s : State) : (endCommand s).hlen = s.hlen := rfl
@[simp] theorem endCommand_plen (s : State) : (endCommand s).plen = s.plen := rfl
@[simp] theorem endCommand_blen (s : State) : (endCommand s).blen = s.blen := rfl
@[simp] theorem endCommand_limit (s : State) : (endCommand s).limit = s.limit := rfl
@[simp] theorem endCommand_idx (s : State) : (endCommand s).idx = s.idx := rfl
@[simp] theorem endCommand_hcap (s : State) : (endCommand s).hcap = s.hcap := rfl
@[simp] theorem endCommand_pcap (s : State) : (endCommand s).pcap = s.pcap := rfl
@[simp] theorem endCommand_op (s : State) : (endCommand s).op = s.op := rfl
@[simp] theorem endCommand_cnt (s : State) : (endCommand s).cnt = s.cnt := rfl
@[simp] theorem endCommand_epoch (s : State) : (endCommand s).epoch = s.epoch := rfl
@[simp] theorem endCommand_draws (s : State) : (endCommand s).draws = s.draws := rfl
@[simp] theorem endCommand_schedule (s : State) : (endCommand s).schedule = s.schedule := rfl
@[simp] theorem endCommand_replies (s : State) : (endCommand s).replies = s.replies := rfl

/-! ### answer -/

@[simp] theorem answer_host (r : Reply) (s : State) : (answer r s).host = s.host := rfl
@[simp] theorem answer_pay (r : Reply) (s : State) : (answer r s).pay = s.pay := rfl
@[simp] theorem answer_bits (r : Reply) (s : State) : (answer r s).bits = s.bits := rfl
@[simp] theorem answer_cmd (r : Reply) (s : State) : (answer r s).cmd = s.cmd := rfl
@[simp] theorem answer_status (r : Reply) (s : State) : (answer r s).status = s.status := rfl
@[simp] theorem answer_hlen (r : Reply) (s : State) : (answer r s).hlen = s.hlen := rfl
@[simp] theorem answer_plen (r : Reply) (s : State) : (answer r s).plen = s.plen := rfl
@[simp] theorem answer_blen (r : Reply) (s : State) : (answer r s).blen = s.blen := rfl
@[simp] theorem answer_limit (r : Reply) (s : State) : (answer r s).limit = s.limit := rfl
@[simp] theorem answer_idx (r : Reply) (s : State) : (answer r s).idx = s.idx := rfl
@[simp] theorem answer_hcap (r : Reply) (s : State) : (answer r s).hcap = s.hcap := rfl
@[simp] theorem answer_pcap (r : Reply) (s : State) : (answer r s).pcap = s.pcap := rfl
@[simp] theorem answer_op (r : Reply) (s : State) : (answer r s).op = s.op := rfl
@[simp] theorem answer_cnt (r : Reply) (s : State) : (answer r s).cnt = s.cnt := rfl
@[simp] theorem answer_epoch (r : Reply) (s : State) : (answer r s).epoch = s.epoch := rfl
@[simp] theorem answer_draws (r : Reply) (s : State) : (answer r s).draws = s.draws := rfl
@[simp] theorem answer_schedule (r : Reply) (s : State) : (answer r s).schedule = s.schedule := rfl
@[simp] theorem answer_replies (r : Reply) (s : State) : (answer r s).replies = r :: s.replies := rfl

/-! ### answerFree -/

@[simp] theorem answerFree_host (r : Nat → Reply) (s : State) : (answerFree r s).host = s.host := rfl
@[simp] theorem answerFree_pay (r : Nat → Reply) (s : State) : (answerFree r s).pay = s.pay := rfl
@[simp] theorem answerFree_bits (r : Nat → Reply) (s : State) : (answerFree r s).bits = s.bits := rfl
@[simp] theorem answerFree_cmd (r : Nat → Reply) (s : State) : (answerFree r s).cmd = s.cmd := rfl
@[simp] theorem answerFree_status (r : Nat → Reply) (s : State) : (answerFree r s).status = s.status := rfl
@[simp] theorem answerFree_hlen (r : Nat → Reply) (s : State) : (answerFree r s).hlen = s.hlen := rfl
@[simp] theorem answerFree_plen (r : Nat → Reply) (s : State) : (answerFree r s).plen = s.plen := rfl
@[simp] theorem answerFree_blen (r : Nat → Reply) (s : State) : (answerFree r s).blen = s.blen := rfl
@[simp] theorem answerFree_limit (r : Nat → Reply) (s : State) : (answerFree r s).limit = s.limit := rfl
@[simp] theorem answerFree_idx (r : Nat → Reply) (s : State) : (answerFree r s).idx = s.idx := rfl
@[simp] theorem answerFree_hcap (r : Nat → Reply) (s : State) : (answerFree r s).hcap = s.hcap := rfl
@[simp] theorem answerFree_pcap (r : Nat → Reply) (s : State) : (answerFree r s).pcap = s.pcap := rfl
@[simp] theorem answerFree_op (r : Nat → Reply) (s : State) : (answerFree r s).op = s.op := rfl
@[simp] theorem answerFree_cnt (r : Nat → Reply) (s : State) : (answerFree r s).cnt = s.cnt := rfl
@[simp] theorem answerFree_epoch (r : Nat → Reply) (s : State) : (answerFree r s).epoch = s.epoch := rfl
@[simp] theorem answerFree_draws (r : Nat → Reply) (s : State) : (answerFree r s).draws = s.draws + 1 := rfl
@[simp] theorem answerFree_schedule (r : Nat → Reply) (s : State) : (answerFree r s).schedule = s.schedule := rfl
@[simp] theorem answerFree_replies (r : Nat → Reply) (s : State) : (answerFree r s).replies = r s.draws :: s.replies := rfl

/-! ### resetBlock -/

@[simp] theorem resetBlock_host (s : State) : (resetBlock s).host = [] := rfl
@[simp] theorem resetBlock_pay (s : State) : (resetBlock s).pay = [] := rfl
@[simp] theorem resetBlock_bits (s : State) : (resetBlock s).bits = [] := rfl
@[simp] theorem resetBlock_cmd (s : State) : (resetBlock s).cmd = 0#32 := rfl
@[simp] theorem resetBlock_status (s : State) : (resetBlock s).status = 0#32 := rfl
@[simp] theorem resetBlock_hlen (s : State) : (resetBlock s).hlen = 0#32 := rfl
@[simp] theorem resetBlock_plen (s : State) : (resetBlock s).plen = 0#32 := rfl
@[simp] theorem resetBlock_blen (s : State) : (resetBlock s).blen = 0#32 := rfl
@[simp] theorem resetBlock_limit (s : State) : (resetBlock s).limit = 0#32 := rfl
@[simp] theorem resetBlock_idx (s : State) : (resetBlock s).idx = 0#32 := rfl
@[simp] theorem resetBlock_hcap (s : State) : (resetBlock s).hcap = s.hcap := rfl
@[simp] theorem resetBlock_pcap (s : State) : (resetBlock s).pcap = s.pcap := rfl
@[simp] theorem resetBlock_op (s : State) : (resetBlock s).op = 0#8 := rfl
@[simp] theorem resetBlock_cnt (s : State) : (resetBlock s).cnt = 0#32 := rfl
@[simp] theorem resetBlock_epoch (s : State) : (resetBlock s).epoch = s.epoch + 1 := rfl
@[simp] theorem resetBlock_draws (s : State) : (resetBlock s).draws = s.draws := rfl
@[simp] theorem resetBlock_schedule (s : State) : (resetBlock s).schedule = s.schedule := rfl
@[simp] theorem resetBlock_replies (s : State) : (resetBlock s).replies = s.replies := rfl

/-! ### block -/

@[simp] theorem State.block_host (s : State) : s.block.host = s.host := rfl
@[simp] theorem State.block_pay (s : State) : s.block.pay = s.pay := rfl
@[simp] theorem State.block_bits (s : State) : s.block.bits = s.bits := rfl
@[simp] theorem State.block_cmd (s : State) : s.block.cmd = s.cmd := rfl
@[simp] theorem State.block_status (s : State) : s.block.status = s.status := rfl
@[simp] theorem State.block_hlen (s : State) : s.block.hlen = s.hlen := rfl
@[simp] theorem State.block_plen (s : State) : s.block.plen = s.plen := rfl
@[simp] theorem State.block_blen (s : State) : s.block.blen = s.blen := rfl
@[simp] theorem State.block_limit (s : State) : s.block.limit = s.limit := rfl
@[simp] theorem State.block_idx (s : State) : s.block.idx = s.idx := rfl
@[simp] theorem State.block_hcap (s : State) : s.block.hcap = s.hcap := rfl
@[simp] theorem State.block_pcap (s : State) : s.block.pcap = s.pcap := rfl
@[simp] theorem State.block_op (s : State) : s.block.op = s.op := rfl
@[simp] theorem State.block_cnt (s : State) : s.block.cnt = s.cnt := rfl
@[simp] theorem State.block_epoch (s : State) : s.block.epoch = s.epoch := rfl
@[simp] theorem State.block_draws (s : State) : s.block.draws = 0 := rfl
@[simp] theorem State.block_schedule (s : State) : s.block.schedule = [] := rfl
@[simp] theorem State.block_replies (s : State) : s.block.replies = [] := rfl

end Sys2Proof.Machine
end

