-- ==== Sys2Proof/Laws/Memory.lean ====
section
/-! SUPPORT. The laws of a buffer: a read after a write, writes to one cell and to two, and the canonical form; then the
same for the cells of a state. -/

namespace Sys2Proof.Machine

variable {w : Nat}

theorem Memory.lookup_store_same (m : Memory w) (a : Nat) (v : BitVec w) :
    Memory.lookup (Memory.store m a v) a = some v := by
  induction m with
  | nil => simp [Memory.store, Memory.lookup]
  | cons c m ih =>
    obtain ⟨b, u⟩ := c
    unfold Memory.store
    split
    · simp [Memory.lookup]
    · split
      · simp [Memory.lookup]
      · simp [Memory.lookup, *]

theorem Memory.lookup_store_other (m : Memory w) {a c : Nat} (v : BitVec w) (h : c ≠ a) :
    Memory.lookup (Memory.store m a v) c = Memory.lookup m c := by
  induction m with
  | nil => simp [Memory.store, Memory.lookup, h]
  | cons d m ih =>
    obtain ⟨b, u⟩ := d
    unfold Memory.store
    split
    · simp [Memory.lookup, h]
    · split
      · rename_i hb
        subst hb
        simp [Memory.lookup, h]
      · simp [Memory.lookup, ih]

/-- A second write to a cell replaces the first. -/
theorem Memory.store_store (m : Memory w) (a : Nat) (u v : BitVec w) :
    Memory.store (Memory.store m a u) a v = Memory.store m a v := by
  induction m with
  | nil => simp [Memory.store]
  | cons d m ih =>
    obtain ⟨b, x⟩ := d
    by_cases h1 : a < b
    · simp [Memory.store, h1]
    · by_cases h2 : a = b
      · subst h2
        simp [Memory.store]
      · simp [Memory.store, h1, h2, ih]

/-- Writes to two cells commute. -/
theorem Memory.store_comm (m : Memory w) {a c : Nat} (u v : BitVec w) (h : a ≠ c) :
    Memory.store (Memory.store m a u) c v = Memory.store (Memory.store m c v) a u := by
  induction m with
  | nil =>
    simp only [Memory.store]
    split <;> split <;> simp_all <;> omega
  | cons d m ih =>
    obtain ⟨b, x⟩ := d
    rcases Nat.lt_trichotomy a b with h1 | h1 | h1 <;> rcases Nat.lt_trichotomy c b with h2 | h2 | h2
    all_goals
      simp only [Memory.store, h1, h2, Nat.lt_irrefl, Nat.lt_asymm, Nat.ne_of_gt, if_true, if_false, ih]
      repeat' (first | split | rfl | omega)

theorem Memory.mem_store (m : Memory w) (a : Nat) (v : BitVec w) {c : Nat × BitVec w}
    (h : c ∈ Memory.store m a v) : c = (a, v) ∨ c ∈ m := by
  induction m with
  | nil => simpa [Memory.store] using h
  | cons d m ih =>
    obtain ⟨b, u⟩ := d
    unfold Memory.store at h
    split at h
    · simpa using h
    · split at h
      · rename_i hb
        simp only [List.mem_cons] at h ⊢
        tauto
      · simp only [List.mem_cons] at h ⊢
        rcases h with h | h
        · exact .inr (.inl h)
        · rcases ih h with h | h <;> simp [h]

/-- Every write keeps the canonical form. -/
theorem Memory.store_wf {cap : Nat} {m : Memory w} {a : Nat} (v : BitVec w) (hm : Memory.wf cap m) (ha : a < cap) :
    Memory.wf cap (Memory.store m a v) := by
  obtain ⟨hp, hb⟩ := hm
  refine ⟨?_, fun c hc => ?_⟩
  · induction m with
    | nil => simp [Memory.store]
    | cons d m ih =>
      obtain ⟨b, u⟩ := d
      rw [List.pairwise_cons] at hp
      have hb' : ∀ c ∈ m, c.1 < cap := fun c hc => hb c (List.mem_cons_of_mem _ hc)
      unfold Memory.store
      split
      · rename_i h
        refine List.pairwise_cons.2 ⟨fun c hc => ?_, List.pairwise_cons.2 hp⟩
        rcases List.mem_cons.1 hc with rfl | hc
        · exact h
        · exact Nat.lt_trans h (hp.1 c hc)
      · split
        · rename_i h
          subst h
          exact List.pairwise_cons.2 hp
        · rename_i h1 h2
          refine List.pairwise_cons.2 ⟨fun c hc => ?_, ih hp.2 hb'⟩
          rcases Memory.mem_store m a v hc with rfl | hc
          · show b < a
            omega
          · exact hp.1 c hc
  · rcases Memory.mem_store m a v hc with rfl | hc
    · exact ha
    · exact hb c hc

/-- The empty buffer, as a reset leaves it, is in canonical form. -/
theorem Memory.nil_wf (cap : Nat) : Memory.wf cap ([] : Memory w) := ⟨List.Pairwise.nil, fun _ h => by cases h⟩

/-! ### The cells of a state -/

/-- Everything a HOST write can do. -/
theorem State.writeHost_eq_some {s t : State} {a : Nat} {v : Byte} :
    s.writeHost a v = some t ↔ a < s.hostCap ∧ t = { s with host := Memory.store s.host a v } := by
  unfold State.writeHost
  split <;> simp_all [eq_comm]

/-- Everything a PAY write can do. -/
theorem State.writePay_eq_some {s t : State} {a : Nat} {v : Byte} :
    s.writePay a v = some t ↔ a < s.payCap ∧ t = { s with pay := Memory.store s.pay a v } := by
  unfold State.writePay
  split <;> simp_all [eq_comm]

/-- Everything a BIT write can do. -/
theorem State.writeBit_eq_some {s t : State} {a : Nat} {v : Bit} :
    s.writeBit a v = some t ↔ a < s.bitCap ∧ t = { s with bits := Memory.store s.bits a v } := by
  unfold State.writeBit
  split <;> simp_all [eq_comm]

theorem hostAt_store (s : State) (a c : Nat) (v : Byte) :
    State.hostAt { s with host := Memory.store s.host a v } c = if c = a then v else s.hostAt c := by
  unfold State.hostAt
  split
  · rename_i h
    subst h
    simp [Memory.lookup_store_same]
  · rename_i h
    simp [Memory.lookup_store_other _ _ h]

theorem payAt_store (s : State) (a c : Nat) (v : Byte) :
    State.payAt { s with pay := Memory.store s.pay a v } c = if c = a then v else s.payAt c := by
  unfold State.payAt
  split
  · rename_i h
    subst h
    simp [Memory.lookup_store_same]
  · rename_i h
    simp [Memory.lookup_store_other _ _ h]

theorem bitAt_store (s : State) (a c : Nat) (v : Bit) :
    State.bitAt { s with bits := Memory.store s.bits a v } c = if c = a then v else s.bitAt c := by
  unfold State.bitAt
  split
  · rename_i h
    subst h
    simp [Memory.lookup_store_same]
  · rename_i h
    simp [Memory.lookup_store_other _ _ h]

end Sys2Proof.Machine
end

