-- ==== Sys2Proof/Laws/Bodies.lean ====
section
/-! SUPPORT. What the bit step of each command and the loops over it do, said once: the bodies in closed form, the
buffers the loops leave, and that a body touches nothing but its destination. -/

namespace Sys2Proof.Machine

theorem div_eight_lt {i n : Nat} : i / 8 < n ↔ i < 8 * n := by omega

/-! ### One bit step -/

theorem bodyPack_eq (i : Nat) (s : State) :
    bodyPack i s = if i < s.bitCap
      then some { s with bits := Memory.store s.bits i (msbbit (s.payAt (i / 8)) (i % 8)) } else none := by
  unfold bodyPack State.readPay State.writeBit State.bitCap
  by_cases h : i < 8 * s.payCap
  · simp [h, div_eight_lt.2 h]
  · simp [h]

theorem bodyUnpack_eq (i : Nat) (s : State) :
    bodyUnpack i s = if i < s.bitCap
      then some { s with pay := Memory.store s.pay (i / 8) (putbit (s.payAt (i / 8)) (i % 8) (s.bitAt i)) } else none := by
  unfold bodyUnpack State.readPay State.writePay State.readBit State.bitCap
  by_cases h : i < 8 * s.payCap
  · simp [h, div_eight_lt.2 h]
  · simp [h]

theorem bodyInject_eq (i : Nat) (s : State) :
    bodyInject i s = if i < s.hostCap ∧ i < s.bitCap
      then some { s with host := Memory.store s.host i (setlsb (s.hostAt i) (s.bitAt i)) } else none := by
  unfold bodyInject State.readHost State.writeHost State.readBit
  by_cases h : i < s.hostCap <;> by_cases h' : i < s.bitCap <;> simp [h, h']

theorem extractOne_eq (i : Nat) (s : State) :
    extractOne i s = if i < s.hostCap ∧ i < s.bitCap
      then some { s with bits := Memory.store s.bits i (lsb (s.hostAt i)) } else none := by
  unfold extractOne State.readHost State.writeBit
  by_cases h : i < s.hostCap <;> by_cases h' : i < s.bitCap <;> simp [h, h']

/-- The byte that UNPACK's big-step effect writes to `PAY[j]` (41_pack_unpack.md R126). -/
def unpackedByte (s : State) (j : Nat) : Byte :=
  byteOfBits (s.bitAt (8 * j)) (s.bitAt (8 * j + 1)) (s.bitAt (8 * j + 2)) (s.bitAt (8 * j + 3))
    (s.bitAt (8 * j + 4)) (s.bitAt (8 * j + 5)) (s.bitAt (8 * j + 6)) (s.bitAt (8 * j + 7))

theorem unpackByte_eq (j : Nat) (s : State) :
    unpackByte j s = if j < s.payCap
      then some { s with pay := Memory.store s.pay j (unpackedByte s j) } else none := by
  unfold unpackByte gatherByte State.readBit State.writePay State.bitCap
  by_cases h : j < s.payCap
  · have h0 : 8 * j < 8 * s.payCap := by omega
    have h1 : 8 * j + 1 < 8 * s.payCap := by omega
    have h2 : 8 * j + 2 < 8 * s.payCap := by omega
    have h3 : 8 * j + 3 < 8 * s.payCap := by omega
    have h4 : 8 * j + 4 < 8 * s.payCap := by omega
    have h5 : 8 * j + 5 < 8 * s.payCap := by omega
    have h6 : 8 * j + 6 < 8 * s.payCap := by omega
    have h7 : 8 * j + 7 < 8 * s.payCap := by omega
    simp [h, h1, h2, h3, h4, h5, h6, h7, unpackedByte]
  · simp [h]

/-! ### Loops -/

/-- The buffer after `f 0, ..., f (n - 1)` have been stored at indices 0 to `n - 1`, in that order. -/
def storeSeq {w : Nat} (m : Memory w) (f : Nat → BitVec w) : Nat → Memory w
  | 0 => m
  | n + 1 => Memory.store (storeSeq m f n) n (f n)

theorem lookup_storeSeq {w : Nat} (m : Memory w) (f : Nat → BitVec w) (n a : Nat) :
    Memory.lookup (storeSeq m f n) a = if a < n then some (f a) else Memory.lookup m a := by
  induction n with
  | zero => simp [storeSeq]
  | succ n ih =>
    by_cases h : a = n
    · subst h
      simp [storeSeq, Memory.lookup_store_same]
    · rw [storeSeq, Memory.lookup_store_other _ _ h, ih]
      have : a < n + 1 ↔ a < n := by omega
      simp [this]

theorem storeSeq_wf {w cap : Nat} {m : Memory w} (f : Nat → BitVec w) {n : Nat} (hm : Memory.wf cap m) (hn : n ≤ cap) :
    Memory.wf cap (storeSeq m f n) := by
  induction n with
  | zero => exact hm
  | succ n ih => exact Memory.store_wf _ (ih (by omega)) (by omega)

theorem hostAt_storeSeq (s : State) (f : Nat → Byte) (n a : Nat) :
    State.hostAt { s with host := storeSeq s.host f n } a = if a < n then f a else s.hostAt a := by
  simp only [State.hostAt, lookup_storeSeq]
  split <;> simp

theorem payAt_storeSeq (s : State) (f : Nat → Byte) (n a : Nat) :
    State.payAt { s with pay := storeSeq s.pay f n } a = if a < n then f a else s.payAt a := by
  simp only [State.payAt, lookup_storeSeq]
  split <;> simp

theorem bitAt_storeSeq (s : State) (f : Nat → Bit) (n a : Nat) :
    State.bitAt { s with bits := storeSeq s.bits f n } a = if a < n then f a else s.bitAt a := by
  simp only [State.bitAt, lookup_storeSeq]
  split <;> simp

theorem forEach_bodyPack (n : Nat) (s : State) :
    forEach n bodyPack s = if n ≤ s.bitCap
      then some { s with bits := storeSeq s.bits (fun i => msbbit (s.payAt (i / 8)) (i % 8)) n } else none := by
  induction n with
  | zero => simp [forEach, storeSeq]
  | succ n ih =>
    rw [forEach, ih]
    by_cases h : n + 1 ≤ s.bitCap
    · have h1 : n ≤ s.bitCap := by omega
      have h2 : n < State.bitCap { s with bits := storeSeq s.bits (fun i => msbbit (s.payAt (i / 8)) (i % 8)) n } := h
      simp only [h, h1, if_true, Option.bind_some, bodyPack_eq, h2]
      rfl
    · by_cases h1 : n ≤ s.bitCap
      · have h2 : ¬ n < State.bitCap { s with bits := storeSeq s.bits (fun i => msbbit (s.payAt (i / 8)) (i % 8)) n } := h
        simp only [h, h1, if_true, if_false, Option.bind_some, bodyPack_eq, h2]
      · simp [h, h1]

theorem forEach_unpackByte (n : Nat) (s : State) :
    forEach n unpackByte s = if n ≤ s.payCap
      then some { s with pay := storeSeq s.pay (unpackedByte s) n } else none := by
  induction n with
  | zero => simp [forEach, storeSeq]
  | succ n ih =>
    rw [forEach, ih]
    by_cases h : n + 1 ≤ s.payCap
    · have h1 : n ≤ s.payCap := by omega
      have h2 : n < State.payCap { s with pay := storeSeq s.pay (unpackedByte s) n } := h
      simp only [h, h1, if_true, Option.bind_some, unpackByte_eq, h2]
      rfl
    · by_cases h1 : n ≤ s.payCap
      · have h2 : ¬ n < State.payCap { s with pay := storeSeq s.pay (unpackedByte s) n } := h
        simp only [h, h1, if_true, if_false, Option.bind_some, unpackByte_eq, h2]
      · simp [h, h1]

theorem forEach_extractOne (n : Nat) (s : State) :
    forEach n extractOne s = if n ≤ s.hostCap ∧ n ≤ s.bitCap
      then some { s with bits := storeSeq s.bits (fun i => lsb (s.hostAt i)) n } else none := by
  induction n with
  | zero => simp [forEach, storeSeq]
  | succ n ih =>
    rw [forEach, ih]
    by_cases h1 : n ≤ s.hostCap ∧ n ≤ s.bitCap
    · simp only [h1, and_self, if_true, Option.bind_some, extractOne_eq]
      by_cases h : n + 1 ≤ s.hostCap ∧ n + 1 ≤ s.bitCap
      · exact (if_pos h).trans (if_pos h).symm
      · exact (if_neg h).trans (if_neg h).symm
    · have h : ¬ (n + 1 ≤ s.hostCap ∧ n + 1 ≤ s.bitCap) := by omega
      rw [if_neg h1, if_neg h, Option.bind_none]

theorem forEach_bodyInject (n : Nat) (s : State) :
    forEach n bodyInject s = if n ≤ s.hostCap ∧ n ≤ s.bitCap
      then some { s with host := storeSeq s.host (fun i => setlsb (s.hostAt i) (s.bitAt i)) n } else none := by
  induction n with
  | zero => simp [forEach, storeSeq]
  | succ n ih =>
    rw [forEach, ih]
    by_cases h1 : n ≤ s.hostCap ∧ n ≤ s.bitCap
    · simp only [h1, and_self, if_true, Option.bind_some, bodyInject_eq, hostAt_storeSeq, Nat.lt_irrefl, if_false]
      by_cases h : n + 1 ≤ s.hostCap ∧ n + 1 ≤ s.bitCap
      · exact (if_pos h).trans (if_pos h).symm
      · exact (if_neg h).trans (if_neg h).symm
    · have h : ¬ (n + 1 ≤ s.hostCap ∧ n + 1 ≤ s.bitCap) := by omega
      rw [if_neg h1, if_neg h, Option.bind_none]

/-- Eight bit steps of UNPACK on one byte add up to the byte of the big-step effect (41_pack_unpack.md R127). -/
theorem bodyUnpack_eight (j : Nat) (s : State) :
    ((((((((bodyUnpack (8 * j) s).bind (bodyUnpack (8 * j + 1))).bind (bodyUnpack (8 * j + 2))).bind
      (bodyUnpack (8 * j + 3))).bind (bodyUnpack (8 * j + 4))).bind (bodyUnpack (8 * j + 5))).bind
      (bodyUnpack (8 * j + 6))).bind (bodyUnpack (8 * j + 7))) = unpackByte j s := by
  have d : ∀ k < 8, (8 * j + k) / 8 = j ∧ (8 * j + k) % 8 = k := fun k hk => by omega
  have d0 : 8 * j / 8 = j ∧ 8 * j % 8 = 0 := d 0 (by omega)
  have b : ∀ k < 8, ∀ m, bodyUnpack (8 * j + k) { s with pay := m } = if j < s.payCap
      then some { s with pay := Memory.store m j (putbit (State.payAt { s with pay := m } j) k (s.bitAt (8 * j + k))) }
      else none := by
    intro k hk m
    have e : 8 * j + k < State.bitCap { s with pay := m } ↔ j < s.payCap := by
      show 8 * j + k < 8 * s.payCap ↔ _
      omega
    simp only [bodyUnpack_eq, (d k hk).1, (d k hk).2, e]
    rfl
  have b0 : bodyUnpack (8 * j) s = if j < s.payCap
      then some { s with pay := Memory.store s.pay j (putbit (s.payAt j) 0 (s.bitAt (8 * j))) } else none := b 0 (by omega) s.pay
  rw [b0, unpackByte_eq]
  by_cases h : j < s.payCap
  · have p : ∀ m v, State.payAt { s with pay := Memory.store m j v } j = v := fun m v => by
      simp [State.payAt, Memory.lookup_store_same]
    simp only [h, if_true, Option.bind_some, b, Nat.reduceLT, p, Memory.store_store, putbit_eight]
    rfl
  · simp [h]

theorem forEach_add_eight (n : Nat) (f : Nat → State → Option State) (s : State) :
    forEach (8 * (n + 1)) f s =
      ((((((((forEach (8 * n) f s).bind (f (8 * n))).bind (f (8 * n + 1))).bind (f (8 * n + 2))).bind (f (8 * n + 3))).bind
        (f (8 * n + 4))).bind (f (8 * n + 5))).bind (f (8 * n + 6))).bind (f (8 * n + 7)) := rfl

/-- All the bit steps of UNPACK add up to its big-step effect on PAY. -/
theorem forEach_bodyUnpack (n : Nat) (s : State) : forEach (8 * n) bodyUnpack s = forEach n unpackByte s := by
  induction n with
  | zero => rfl
  | succ n ih =>
    rw [forEach_add_eight, ih, forEach]
    cases forEach n unpackByte s with
    | none => rfl
    | some t => exact bodyUnpack_eight n t

end Sys2Proof.Machine
end

