-- ==== Sys2Proof/Laws/Commands.lean ====
section
/-! SUPPORT. What each shared operation of a command can do, said once: error entry, start, finish, the checks at issue,
the issue of a word, the big-step effects, and the whole command. -/

namespace Sys2Proof.Machine

/-! ### STATUS -/

/-- STATUS after an error entry (60_exceptions.md R200). -/
def errorStatus : ErrorCause → Word
  | .capacity => 0x16#32
  | .illegalCommand => 0x26#32
  | .bounds => 0x36#32

/-- Error entry in a command issue: CMD, IDX and STATUS. -/
theorem raise_latch (e : ErrorCause) (w : Word) (s : State) :
    raise e (latchCommand w s) = { s with cmd := w, idx := 0#32, status := errorStatus e } := by
  have h : setCause (setErr (setDone 0#32 true) true) e.code = errorStatus e := by cases e <;> decide
  simp only [raise, latchCommand, h]

/-- The start of a command in a command issue: CMD, IDX, STATUS, OP and CNT. -/
theorem start_latch (o : BitVec 8) (n : Nat) (w : Word) (s : State) :
    start o n (latchCommand w s)
      = { s with cmd := w, idx := 0#32, status := 0x1#32, op := o, cnt := BitVec.ofNat 32 n } := by
  have h : setBusy 0#32 true = 0x1#32 := by decide
  simp only [start, latchCommand, h]

/-- The end of a command whose STATUS said busy and nothing else. -/
theorem endCommand_busy (s : State) (h : s.status = 0x1#32) : endCommand s = { s with status := 0x2#32 } := by
  have h' : setDone (setBusy 0x1#32 false) true = 0x2#32 := by decide
  simp only [endCommand, h, h']

theorem busy_of_status {s : State} {st : Word} (h : s.status = st) : s.busy = statusBusy st := by
  rw [State.busy, h]

theorem err_of_status {s : State} {st : Word} (h : s.status = st) : s.err = statusErr st := by
  rw [State.err, h]

/-- A legal STATUS that says busy says nothing else. -/
theorem legalStatus_busy {s : State} (hl : legalStatus s.status) (hb : s.busy = true) : s.status = 0x1#32 := by
  simp only [legalStatus, List.mem_cons, List.not_mem_nil, or_false] at hl
  rcases hl with h | h | h | h | h | h <;> simp_all [State.busy, statusBusy]

/-! ### The checks at issue -/

theorem checksOf_eq (c : Instr) (s : State) :
    checksOf c s = checkAndStart (inRangeOf c s) (overCapacityOf c s) (opcodeOf c) (countOf c s) s := by
  cases c <;> rfl

@[simp] theorem inRangeOf_latch (c : Instr) (w : Word) (s : State) :
    inRangeOf c (latchCommand w s) = inRangeOf c s := by cases c <;> rfl

@[simp] theorem overCapacityOf_latch (c : Instr) (w : Word) (s : State) :
    overCapacityOf c (latchCommand w s) = overCapacityOf c s := by cases c <;> rfl

@[simp] theorem countOf_latch (c : Instr) (w : Word) (s : State) :
    countOf c (latchCommand w s) = countOf c s := by cases c <;> rfl

/-- The state in which a command issue that ends in an error leaves the block. -/
def failedState (w : Word) (e : ErrorCause) (s : State) : State :=
  { s with cmd := w, idx := 0#32, status := errorStatus e }

/-- The state in which a command issue that finds no error leaves the block. -/
def startedState (c : Instr) (s : State) : State :=
  { s with cmd := encode c, idx := 0#32, status := 0x1#32, op := opcodeOf c, cnt := BitVec.ofNat 32 (countOf c s) }

theorem failedState_idle (w : Word) (e : ErrorCause) (s : State) : (failedState w e s).busy = false := by
  have h : ∀ e, statusBusy (errorStatus e) = false := by intro e; cases e <;> decide
  exact h e

theorem startedState_busy (c : Instr) (s : State) : (startedState c s).busy = true := by
  show statusBusy 0x1#32 = true
  decide

/-- The three outcomes of the checks of a legal command (40_sequencer.md R106). -/
theorem checks_latch (c : Instr) (s : State) :
    checksOf c (latchCommand (encode c) s) =
      if inRangeOf c s = false then failedState (encode c) .bounds s
      else if overCapacityOf c s = true then failedState (encode c) .capacity s
      else startedState c s := by
  rw [checksOf_eq, inRangeOf_latch, overCapacityOf_latch, countOf_latch]
  simp only [checkAndStart, raise_latch, start_latch]
  rfl

theorem decode_encode (c : Instr) : decode (encode c) = .ok c := by cases c <;> rfl

/-- What the issue of a legal command does. -/
theorem issue_encode (c : Instr) (s : State) :
    issue (encode c) s =
      if inRangeOf c s = false then failedState (encode c) .bounds s
      else if overCapacityOf c s = true then failedState (encode c) .capacity s
      else startedState c s := by
  unfold issue
  rw [decode_encode]
  exact checks_latch c s

/-- What the issue of an illegal word does. -/
theorem issue_illegal {w : Word} {r : IllegalWord} (s : State) (h : decode w = .error r) :
    issue w s = failedState w .illegalCommand s := by
  unfold issue
  rw [h]
  exact raise_latch _ _ _

/-! ### The big-step effects -/

/-- The big-step effect by command. -/
def effectOf : Instr → State → Option State
  | .pack, s => effectPack s
  | .unpack, s => effectUnpack s
  | .inject, s => effectInject s
  | .extract, s => effectExtract s
  | .extractl, s => effectExtractl s

theorem effectPack_eq (s : State) :
    effectPack s = if 8 * s.plen.toNat ≤ s.bitCap then some { s with
      bits := storeSeq s.bits (fun i => msbbit (s.payAt (i / 8)) (i % 8)) (8 * s.plen.toNat)
      blen := BitVec.ofNat 32 (8 * s.plen.toNat) } else none := by
  unfold effectPack
  rw [forEach_bodyPack]
  split <;> rfl

theorem effectUnpack_eq (s : State) :
    effectUnpack s = if s.blen.toNat / 8 ≤ s.payCap then some { s with
      pay := storeSeq s.pay (unpackedByte s) (s.blen.toNat / 8)
      plen := BitVec.ofNat 32 (s.blen.toNat / 8) } else none := by
  unfold effectUnpack
  rw [forEach_unpackByte]
  split <;> rfl

theorem effectInject_eq (s : State) :
    effectInject s = if s.blen.toNat ≤ s.hostCap ∧ s.blen.toNat ≤ s.bitCap then some { s with
      host := storeSeq s.host (fun i => setlsb (s.hostAt i) (s.bitAt i)) s.blen.toNat } else none := by
  unfold effectInject
  rw [forEach_bodyInject]

theorem effectExtract_eq (s : State) :
    effectExtract s = if s.hlen.toNat ≤ s.hostCap ∧ s.hlen.toNat ≤ s.bitCap then some { s with
      bits := storeSeq s.bits (fun i => lsb (s.hostAt i)) s.hlen.toNat
      blen := s.hlen } else none := by
  unfold effectExtract
  rw [forEach_extractOne]
  split <;> rfl

theorem effectExtractl_eq (s : State) :
    effectExtractl s = if min s.hlen.toNat s.limit.toNat ≤ s.hostCap ∧ min s.hlen.toNat s.limit.toNat ≤ s.bitCap
      then some { s with
        bits := storeSeq s.bits (fun i => lsb (s.hostAt i)) (min s.hlen.toNat s.limit.toNat)
        blen := BitVec.ofNat 32 (min s.hlen.toNat s.limit.toNat) } else none := by
  unfold effectExtractl
  rw [forEach_extractOne]
  split <;> rfl

/-! ### The whole command -/

theorem exec_eq (c : Instr) (s : State) : exec c s = runCommand (encode c) (checksOf c) (effectOf c) s := by
  cases c <;> rfl

/-- While busy a command is dropped. -/
theorem exec_busy (c : Instr) {s : State} (h : s.busy = true) : exec c s = .next s := by
  rw [exec_eq, runCommand, if_pos h]

/-- A command with an operand out of range fails with BoundsError. -/
theorem exec_outOfRange {c : Instr} {s : State} (h : s.busy = false) (hr : inRangeOf c s = false) :
    exec c s = .next (failedState (encode c) .bounds s) := by
  have hc : checksOf c (latchCommand (encode c) s) = failedState (encode c) .bounds s := by simp [checks_latch, hr]
  simp [exec_eq, runCommand, h, hc, failedState_idle]

/-- A command over capacity fails with CapacityError. -/
theorem exec_overCapacity {c : Instr} {s : State} (h : s.busy = false) (hr : inRangeOf c s = true)
    (ho : overCapacityOf c s = true) : exec c s = .next (failedState (encode c) .capacity s) := by
  have hc : checksOf c (latchCommand (encode c) s) = failedState (encode c) .capacity s := by
    simp [checks_latch, hr, ho]
  simp [exec_eq, runCommand, h, hc, failedState_idle]

/-- A command that starts has its big-step effect, from the state its issue leaves. -/
theorem exec_starts {c : Instr} {s : State} (h : starts c s) :
    exec c s = match effectOf c (startedState c s) with
      | some u => .next (endCommand { u with idx := u.cnt })
      | none => .fault .cellOutsideBuffer := by
  obtain ⟨hb, hr, ho⟩ := h
  have hc : checksOf c (latchCommand (encode c) s) = startedState c s := by simp [checks_latch, hr, ho]
  simp only [exec_eq, runCommand, hb, hc, startedState_busy, if_true, Bool.false_eq_true, if_false]
  all_goals rfl

/-- What the parameters of 00_scope.md R5 give. -/
theorem capacitiesOk_bounds {s : State} (h : s.capacitiesOk) :
    1 ≤ s.payCap ∧ s.payCap ≤ 536870911 ∧ 1 ≤ s.hostCap ∧ s.hostCap ≤ s.bitCap ∧ s.bitCap < 2 ^ 32 := by
  simp only [State.capacitiesOk, capacitiesWellFormed, Bool.and_eq_true, decide_eq_true_eq] at h
  unfold State.bitCap
  omega

/-- A count that is in range fits CNT. -/
theorem toNat_count {n : Nat} (h : n < 2 ^ 32) : (BitVec.ofNat 32 n).toNat = n := by
  rw [BitVec.toNat_ofNat, Nat.mod_eq_of_lt h]

end Sys2Proof.Machine
end

