-- ==== Sys2Proof/Laws/Sequencer.lean ====
section
/-! SUPPORT. What the bit step and the finish step of any command can do: the frame of a body, what a body does not look
at, where it exists, and that all the bodies of a command and its finish step add up to the big-step effect. -/

namespace Sys2Proof.Machine

theorem opcodeInstr_opcodeOf (c : Instr) : opcodeInstr (opcodeOf c) = some c := by cases c <;> rfl

/-- A body changes buffers only. -/
theorem bodyOf_frame {c : Instr} {i : Nat} {s t : State} (h : bodyOf c i s = some t) :
    t = { s with host := t.host, pay := t.pay, bits := t.bits } := by
  cases c <;> simp only [bodyOf, bodyPack_eq, bodyUnpack_eq, bodyInject_eq, bodyExtract, bodyExtractl, extractOne_eq] at h <;>
    split at h <;> cases h <;> rfl

/-- A body keeps the buffers in canonical form. -/
theorem bodyOf_wf {c : Instr} {i : Nat} {s t : State} (h : bodyOf c i s = some t)
    (hh : Memory.wf s.hostCap s.host) (hp : Memory.wf s.payCap s.pay) (hb : Memory.wf s.bitCap s.bits) :
    Memory.wf s.hostCap t.host ∧ Memory.wf s.payCap t.pay ∧ Memory.wf s.bitCap t.bits := by
  cases c <;> simp only [bodyOf, bodyPack_eq, bodyUnpack_eq, bodyInject_eq, bodyExtract, bodyExtractl, extractOne_eq] at h <;>
    split at h <;> rename_i hi <;> cases h
  · exact ⟨hh, hp, Memory.store_wf _ hb hi⟩
  · exact ⟨hh, Memory.store_wf _ hp (div_eight_lt.2 hi), hb⟩
  · exact ⟨Memory.store_wf _ hh hi.1, hp, hb⟩
  · exact ⟨hh, hp, Memory.store_wf _ hb hi.2⟩
  · exact ⟨hh, hp, Memory.store_wf _ hb hi.2⟩

/-- The index, the status and the model's own bookkeeping, which no body looks at. -/
def State.aux (s : State) (idx status : Word) (schedule : List Turn) (replies : List Reply) (draws : Nat) : State :=
  { s with idx := idx, status := status, schedule := schedule, replies := replies, draws := draws }

theorem bodyOf_aux (c : Instr) (i : Nat) (s : State) (x st : Word) (q : List Turn) (r : List Reply) (d : Nat) :
    bodyOf c i (s.aux x st q r d) = (bodyOf c i s).map fun t => t.aux x st q r d := by
  cases c <;> simp only [bodyOf, bodyPack_eq, bodyUnpack_eq, bodyInject_eq, bodyExtract, bodyExtractl, extractOne_eq]
  case pack =>
    change (if i < s.bitCap then _ else _) = _
    split
    · rfl
    · rfl
  case unpack =>
    change (if i < s.bitCap then _ else _) = _
    split
    · rfl
    · rfl
  all_goals
    change (if i < s.hostCap ∧ i < s.bitCap then _ else _) = _
    split
    · rfl
    · rfl

/-- Where the operands of a command are in range, its count is at most the capacities of what it touches. -/
theorem countOf_le {c : Instr} {s : State} (hc : s.capacitiesOk) (hr : inRangeOf c s = true)
    (ho : overCapacityOf c s = false) :
    countOf c s ≤ s.bitCap ∧ (c = .inject ∨ c = .extract ∨ c = .extractl → countOf c s ≤ s.hostCap) := by
  have hb := capacitiesOk_bounds hc
  cases c <;>
    simp only [inRangeOf, inRangePack, inRangeUnpack, inRangeInject, inRangeExtract, inRangeExtractl, overCapacityOf,
      overCapacity, decide_eq_true_eq, decide_eq_false_iff_not, Bool.and_eq_true] at hr ho <;>
    simp only [countOf, countPack, countUnpack, countInject, countExtract, countExtractl, State.bitCap] at * <;>
    simp <;> omega

/-- A body exists wherever its index is below those capacities. -/
theorem bodyOf_isSome {c : Instr} {i : Nat} {s : State} (h : i < s.bitCap)
    (h' : c = .inject ∨ c = .extract ∨ c = .extractl → i < s.hostCap) : ∃ t, bodyOf c i s = some t := by
  cases c <;> simp only [bodyOf, bodyPack_eq, bodyUnpack_eq, bodyInject_eq, bodyExtract, bodyExtractl, extractOne_eq]
  case pack => exact ⟨_, if_pos h⟩
  case unpack => exact ⟨_, if_pos h⟩
  all_goals exact ⟨_, if_pos ⟨h' (by simp), h⟩⟩

/-- A loop of bodies changes buffers only. -/
theorem forEach_frame {c : Instr} {n : Nat} {s t : State} (h : forEach n (bodyOf c) s = some t) :
    t = { s with host := t.host, pay := t.pay, bits := t.bits } := by
  induction n generalizing t with
  | zero => cases h; rfl
  | succ n ih =>
    rw [forEach] at h
    cases hu : forEach n (bodyOf c) s with
    | none => rw [hu] at h; cases h
    | some u =>
      rw [hu] at h
      have h1 := bodyOf_frame (show bodyOf c n u = some t from h)
      rw [ih hu] at h1
      exact h1

/-- A loop of bodies exists wherever its last index is below the capacities. -/
theorem forEach_isSome {c : Instr} {n : Nat} {s : State} (h : n ≤ s.bitCap)
    (h' : c = .inject ∨ c = .extract ∨ c = .extractl → n ≤ s.hostCap) : ∃ t, forEach n (bodyOf c) s = some t := by
  induction n with
  | zero => exact ⟨s, rfl⟩
  | succ n ih =>
    obtain ⟨u, hu⟩ := ih (by omega) fun hc => by have := h' hc; omega
    have hf := forEach_frame hu
    have e1 : u.bitCap = s.bitCap := by rw [hf]; rfl
    have e2 : u.hostCap = s.hostCap := by rw [hf]; rfl
    obtain ⟨t, ht⟩ := bodyOf_isSome (c := c) (i := n) (s := u) (by omega) fun hc => by have := h' hc; omega
    exact ⟨t, by rw [forEach, hu]; exact ht⟩

/-- All the bit steps of a started command, then the length its finish step writes, are its big-step effect. -/
theorem effectOf_eq_forEach {c : Instr} {s : State} (hc : s.capacitiesOk) (h : starts c s) :
    effectOf c (startedState c s) = (forEach (countOf c s) (bodyOf c) (startedState c s)).map (finishOf c) := by
  have hb := capacitiesOk_bounds hc
  have hle := countOf_le hc h.2.1 h.2.2
  cases c
  case pack =>
    have hf : forEach (countOf .pack s) (bodyOf .pack) (startedState .pack s) = _ :=
      (forEach_bodyPack _ _).trans (if_pos hle.1)
    rw [hf]
    exact (effectPack_eq _).trans (if_pos hle.1)
  case unpack =>
    have hl : s.blen.toNat / 8 ≤ s.payCap := by
      have := hle.1
      simp only [countOf, countUnpack, State.bitCap] at this
      omega
    have hf : forEach (countOf .unpack s) (bodyOf .unpack) (startedState .unpack s) = _ :=
      (forEach_bodyUnpack (s.blen.toNat / 8) _).trans ((forEach_unpackByte _ _).trans (if_pos hl))
    rw [hf]
    refine ((effectUnpack_eq (startedState .unpack s)).trans (if_pos hl)).trans ?_
    have e : (BitVec.ofNat 32 (8 * (s.blen.toNat / 8))).toNat / 8 = s.blen.toNat / 8 := by
      rw [toNat_count (by omega)]
      omega
    simp only [Option.map_some, finishOf, finishUnpack, startedState, countOf, countUnpack, e]
  case inject =>
    have hl : countOf .inject s ≤ s.hostCap ∧ countOf .inject s ≤ s.bitCap := ⟨hle.2 (by simp), hle.1⟩
    have hf : forEach (countOf .inject s) (bodyOf .inject) (startedState .inject s) = _ :=
      (forEach_bodyInject _ _).trans (if_pos hl)
    rw [hf]
    exact (effectInject_eq _).trans (if_pos hl)
  case extract =>
    have hl : countOf .extract s ≤ s.hostCap ∧ countOf .extract s ≤ s.bitCap := ⟨hle.2 (by simp), hle.1⟩
    have hf : forEach (countOf .extract s) (bodyOf .extract) (startedState .extract s) = _ :=
      (forEach_extractOne _ _).trans (if_pos hl)
    rw [hf]
    refine ((effectExtract_eq (startedState .extract s)).trans (if_pos hl)).trans ?_
    simp [finishOf, finishExtract, startedState, countOf, countExtract]
  case extractl =>
    have hl : countOf .extractl s ≤ s.hostCap ∧ countOf .extractl s ≤ s.bitCap := ⟨hle.2 (by simp), hle.1⟩
    have hf : forEach (countOf .extractl s) (bodyOf .extractl) (startedState .extractl s) = _ :=
      (forEach_extractOne _ _).trans (if_pos hl)
    rw [hf]
    exact (effectExtractl_eq _).trans (if_pos hl)

end Sys2Proof.Machine
end

