-- ==== Sys2Proof/Laws/Effects.lean ====
section
/-! SUPPORT. The whole command in closed form, one lemma per command, and the loops of stores that the closed forms
speak of. -/

namespace Sys2Proof.Machine

/-! ### Loops of stores -/

theorem storeSeq_congr {w : Nat} (m : Memory w) {f g : Nat → BitVec w} {n : Nat} (h : ∀ i < n, f i = g i) :
    storeSeq m f n = storeSeq m g n := by
  induction n with
  | zero => rfl
  | succ n ih => rw [storeSeq, storeSeq, ih fun i hi => h i (by omega), h n (by omega)]

/-- A store above the cells of a loop of stores can be done after it. -/
theorem storeSeq_store {w : Nat} (m : Memory w) (f : Nat → BitVec w) {k n : Nat} (v : BitVec w) (h : k ≤ n) :
    storeSeq (Memory.store m n v) f k = Memory.store (storeSeq m f k) n v := by
  induction k with
  | zero => rfl
  | succ k ih => rw [storeSeq, ih (by omega), Memory.store_comm _ _ _ (by omega)]; rfl

/-- A second loop of stores to the same cells replaces the first. -/
theorem storeSeq_storeSeq {w : Nat} (m : Memory w) (f g : Nat → BitVec w) (n : Nat) :
    storeSeq (storeSeq m f n) g n = storeSeq m g n := by
  induction n with
  | zero => rfl
  | succ n ih =>
    rw [storeSeq, storeSeq, storeSeq_store _ _ _ (Nat.le_refl n), Memory.store_store, ih]
    rfl

/-! ### Whole commands -/

theorem exec_pack_starts {s : State} (h : s.busy = false) (hr : s.plen.toNat ≤ s.payCap) :
    exec .pack s = .next { s with
      bits := storeSeq s.bits (fun i => msbbit (s.payAt (i / 8)) (i % 8)) (8 * s.plen.toNat)
      blen := BitVec.ofNat 32 (8 * s.plen.toNat), cmd := 1#32, status := 2#32
      idx := BitVec.ofNat 32 (8 * s.plen.toNat), op := 1#8, cnt := BitVec.ofNat 32 (8 * s.plen.toNat) } := by
  have hl : 8 * s.plen.toNat ≤ s.bitCap := Nat.mul_le_mul_left 8 hr
  have e := (effectPack_eq (startedState .pack s)).trans (if_pos hl)
  rw [exec_starts ⟨h, by simpa [inRangeOf, inRangePack] using hr, rfl⟩, show effectOf .pack _ = _ from e]
  exact congrArg _ (endCommand_busy _ rfl)

theorem exec_unpack_starts {s : State} (h : s.busy = false) (hr : s.blen.toNat ≤ s.bitCap) :
    exec .unpack s = .next { s with
      pay := storeSeq s.pay (unpackedByte s) (s.blen.toNat / 8), plen := BitVec.ofNat 32 (s.blen.toNat / 8)
      cmd := 2#32, status := 2#32, idx := BitVec.ofNat 32 (8 * (s.blen.toNat / 8)), op := 2#8
      cnt := BitVec.ofNat 32 (8 * (s.blen.toNat / 8)) } := by
  have hl : s.blen.toNat / 8 ≤ s.payCap := by
    unfold State.bitCap at hr
    omega
  have e := (effectUnpack_eq (startedState .unpack s)).trans (if_pos hl)
  rw [exec_starts ⟨h, by simpa [inRangeOf, inRangeUnpack] using hr, rfl⟩, show effectOf .unpack _ = _ from e]
  exact congrArg _ (endCommand_busy _ rfl)

theorem exec_inject_starts {s : State} (h : s.busy = false) (hr : s.blen.toNat ≤ s.bitCap) (hh : s.hlen.toNat ≤ s.hostCap)
    (hb : s.blen.toNat ≤ s.hlen.toNat) :
    exec .inject s = .next { s with
      host := storeSeq s.host (fun i => setlsb (s.hostAt i) (s.bitAt i)) s.blen.toNat
      cmd := 3#32, status := 2#32, idx := s.blen, op := 3#8, cnt := s.blen } := by
  have hl : s.blen.toNat ≤ s.hostCap ∧ s.blen.toNat ≤ s.bitCap := by omega
  have e := (effectInject_eq (startedState .inject s)).trans (if_pos hl)
  rw [exec_starts ⟨h, by simpa [inRangeOf, inRangeInject] using ⟨hr, hh⟩, by simpa [overCapacityOf, overCapacity] using hb⟩,
    show effectOf .inject _ = _ from e]
  refine (congrArg _ (endCommand_busy _ rfl)).trans ?_
  simp [startedState, countOf, countInject, encode, opcodeOf]
  rfl

theorem exec_extract_starts {s : State} (hc : s.capacitiesOk) (h : s.busy = false) (hr : s.hlen.toNat ≤ s.hostCap) :
    exec .extract s = .next { s with
      bits := storeSeq s.bits (fun i => lsb (s.hostAt i)) s.hlen.toNat, blen := s.hlen
      cmd := 4#32, status := 2#32, idx := s.hlen, op := 4#8, cnt := s.hlen } := by
  have hc := capacitiesOk_bounds hc
  have hl : s.hlen.toNat ≤ s.hostCap ∧ s.hlen.toNat ≤ s.bitCap := by omega
  have e := (effectExtract_eq (startedState .extract s)).trans (if_pos hl)
  rw [exec_starts ⟨h, by simpa [inRangeOf, inRangeExtract] using hr, rfl⟩, show effectOf .extract _ = _ from e]
  refine (congrArg _ (endCommand_busy _ rfl)).trans ?_
  simp [startedState, countOf, countExtract, encode, opcodeOf]
  rfl

theorem exec_extractl_starts {s : State} (hc : s.capacitiesOk) (h : s.busy = false) (hr : s.hlen.toNat ≤ s.hostCap) :
    exec .extractl s = .next { s with
      bits := storeSeq s.bits (fun i => lsb (s.hostAt i)) (min s.hlen.toNat s.limit.toNat)
      blen := BitVec.ofNat 32 (min s.hlen.toNat s.limit.toNat), cmd := 5#32, status := 2#32
      idx := BitVec.ofNat 32 (min s.hlen.toNat s.limit.toNat), op := 5#8
      cnt := BitVec.ofNat 32 (min s.hlen.toNat s.limit.toNat) } := by
  have hc := capacitiesOk_bounds hc
  have hl : min s.hlen.toNat s.limit.toNat ≤ s.hostCap ∧ min s.hlen.toNat s.limit.toNat ≤ s.bitCap := by omega
  have e := (effectExtractl_eq (startedState .extractl s)).trans (if_pos hl)
  rw [exec_starts ⟨h, by simpa [inRangeOf, inRangeExtractl] using hr, rfl⟩, show effectOf .extractl _ = _ from e]
  exact congrArg _ (endCommand_busy _ rfl)

/-! ### Any whole command -/

/-- The finish step writes at most one length register, and STATUS. -/
theorem finishStep_frame (c : Instr) (s : State) (h : s.status = 1#32) :
    finishStep c s = { s with plen := (finishStep c s).plen, blen := (finishStep c s).blen, status := 2#32 } := by
  unfold finishStep
  have h' : (finishOf c s).status = 1#32 := by rw [← h]; cases c <;> rfl
  rw [endCommand_busy _ h']
  cases c <;> rfl

/-- A loop of bodies keeps the buffers in canonical form. -/
theorem forEach_wf {c : Instr} {n : Nat} {s t : State} (h : forEach n (bodyOf c) s = some t)
    (hh : Memory.wf s.hostCap s.host) (hp : Memory.wf s.payCap s.pay) (hb : Memory.wf s.bitCap s.bits) :
    Memory.wf s.hostCap t.host ∧ Memory.wf s.payCap t.pay ∧ Memory.wf s.bitCap t.bits := by
  induction n generalizing t with
  | zero => cases h; exact ⟨hh, hp, hb⟩
  | succ n ih =>
    rw [forEach] at h
    cases hu : forEach n (bodyOf c) s with
    | none => rw [hu] at h; cases h
    | some u =>
      rw [hu] at h
      obtain ⟨a, b, d⟩ := ih hu
      have hf := forEach_frame hu
      have e1 : u.hostCap = s.hostCap := by rw [hf]; rfl
      have e2 : u.payCap = s.payCap := by rw [hf]; rfl
      have e3 : u.bitCap = s.bitCap := by rw [hf]; rfl
      have hw := bodyOf_wf (show bodyOf c n u = some t from h) (by rwa [e1]) (by rwa [e2]) (by rwa [e3])
      rwa [e1, e2, e3] at hw

/-- A command that starts is all its bodies, then its finish step. -/
theorem exec_starts_forEach {c : Instr} {s : State} (hc : s.capacitiesOk) (h : starts c s) :
    ∃ u, forEach (countOf c s) (bodyOf c) (startedState c s) = some u ∧
      exec c s = .next (finishStep c { u with idx := u.cnt }) := by
  have hle := countOf_le hc h.2.1 h.2.2
  obtain ⟨u, hu⟩ := forEach_isSome (c := c) (n := countOf c s) (s := startedState c s) hle.1 hle.2
  refine ⟨u, hu, ?_⟩
  rw [exec_starts h, effectOf_eq_forEach hc h, hu]
  simp only [Option.map_some]
  cases c <;> rfl

/-- Everything a command can do where the parameters meet R5: dropped while busy, an error, or its bodies and its finish
step. -/
theorem exec_cases (c : Instr) {s : State} (hc : s.capacitiesOk) :
    (s.busy = true ∧ exec c s = .next s) ∨ (s.busy = false ∧ ∃ e, exec c s = .next (failedState (encode c) e s)) ∨
      (starts c s ∧ ∃ u, forEach (countOf c s) (bodyOf c) (startedState c s) = some u ∧
        exec c s = .next (finishStep c { u with idx := u.cnt })) := by
  cases hb : s.busy
  · refine .inr ?_
    cases hr : inRangeOf c s
    · exact .inl ⟨rfl, _, exec_outOfRange hb hr⟩
    · cases ho : overCapacityOf c s
      · exact .inr ⟨⟨hb, hr, ho⟩, exec_starts_forEach hc ⟨hb, hr, ho⟩⟩
      · exact .inl ⟨rfl, _, exec_overCapacity hb hr ho⟩
  · exact .inl ⟨rfl, exec_busy c hb⟩

end Sys2Proof.Machine
end

