-- ==== Sys2Proof/Laws/PerInstr.lean ====
section
/-! SUPPORT. Per command: its word has format C (30_encoding.md R81, R83) and decodes to it. -/

namespace Sys2Proof.Laws.Encoding

/-- The word of a command is 24 zero bits and its opcode, which is in 1 to 5; the decoder gives the command back, also
from the word as the opcode table numbers it; the command is well formed. -/
def Statement (i : Instr) : Prop :=
  encode i = 0#24 ++ opcodeOf i ∧ zeroField (encode i) = 0#24 ∧ opcodeField (encode i) = opcodeOf i ∧
    1 ≤ (opcodeOf i).toNat ∧ (opcodeOf i).toNat ≤ 5 ∧ opcodeInstr (opcodeOf i) = some i ∧
    decodeTableWord 32 (encode i).toNat = some i ∧ i.wellFormed = true

theorem pack : Statement .pack := by unfold Statement; decide
theorem unpack : Statement .unpack := by unfold Statement; decide
theorem inject : Statement .inject := by unfold Statement; decide
theorem extract : Statement .extract := by unfold Statement; decide
theorem extractl : Statement .extractl := by unfold Statement; decide

end Sys2Proof.Laws.Encoding
end

