-- ==== Sys2Proof/Laws/Steps.lean ====
section
/-! SUPPORT. What one turn can do, said once: the two sequencer steps, host transactions by admission, and the issue of
any word. -/

namespace Sys2Proof.Machine

/-! ### The sequencer -/

/-- The bit step of a running command. -/
theorem sequencerTurn_bit {c : Instr} {s t : State} (hb : s.busy = true) (ho : opcodeInstr s.op = some c)
    (hi : s.idx.toNat < s.cnt.toNat) (ht : bodyOf c s.idx.toNat s = some t) :
    sequencerTurn s = .next { t with idx := s.idx + 1#32 } := by
  simp only [sequencerTurn, hb, if_true, sequencerStep, ho, hi, bitStep, ht]

/-- The finish step of a running command. -/
theorem sequencerTurn_finish {c : Instr} {s : State} (hb : s.busy = true) (ho : opcodeInstr s.op = some c)
    (hi : s.idx = s.cnt) : sequencerTurn s = .next (finishStep c s) := by
  simp [sequencerTurn, hb, sequencerStep, ho, hi]

/-- No sequencer step is enabled while idle. -/
theorem sequencerTurn_idle {s : State} (hb : s.busy = false) : sequencerTurn s = .next s := by
  simp [sequencerTurn, hb]

/-- Everything a sequencer turn that answers a next state can do. -/
theorem sequencerTurn_cases {s t : State} (hb : s.busy = true) (h : sequencerTurn s = .next t) :
    ∃ c, opcodeInstr s.op = some c ∧
      ((s.idx.toNat < s.cnt.toNat ∧ ∃ u, bodyOf c s.idx.toNat s = some u ∧ t = { u with idx := s.idx + 1#32 }) ∨
        (s.idx = s.cnt ∧ t = finishStep c s)) := by
  unfold sequencerTurn at h
  rw [if_pos hb] at h
  unfold sequencerStep at h
  split at h
  · cases h
  · rename_i c hc
    refine ⟨c, hc, ?_⟩
    split at h
    · rename_i hi
      unfold bitStep at h
      split at h
      · rename_i u hu
        cases h
        exact .inl ⟨hi, u, hu, rfl⟩
      · cases h
    · split at h
      · rename_i hi
        cases h
        exact .inr ⟨hi, rfl⟩
      · cases h

/-- From a state that meets the invariant, a busy sequencer's step is enabled. -/
theorem sequencerTurn_enabled {s : State} (hv : Inv s) (hb : s.busy = true) :
    ∃ c, opcodeInstr s.op = some c ∧
      ((s.idx.toNat < s.cnt.toNat ∧ ∃ u, bodyOf c s.idx.toNat s = some u ∧
          sequencerTurn s = .next { u with idx := s.idx + 1#32 }) ∨
        (s.idx = s.cnt ∧ sequencerTurn s = .next (finishStep c s))) := by
  have hl := hv.running hb
  unfold latchesOk at hl
  split at hl
  · exact hl.elim
  · rename_i c hc
    obtain ⟨hr, ho, hn, hx⟩ := hl
    refine ⟨c, hc, ?_⟩
    have hle := countOf_le hv.capacities hr ho
    rcases Nat.lt_or_eq_of_le hx with hi | hi
    · obtain ⟨u, hu⟩ := bodyOf_isSome (c := c) (i := s.idx.toNat) (s := s) (by omega)
        fun hc => by have := hle.2 hc; omega
      exact .inl ⟨hi, u, hu, sequencerTurn_bit hb hc hi hu⟩
    · have hi' := BitVec.eq_of_toNat_eq hi
      exact .inr ⟨hi', sequencerTurn_finish hb hc hi'⟩

/-! ### Host transactions -/

theorem readReg_some (s : State) {n : Nat} (h : n ≤ 8) : ∃ v, s.readReg n = some v := by
  interval_cases n <;> exact ⟨_, rfl⟩

/-- Everything an admitted transaction can do while idle: a reply, a stored cell, a stored length or limit, nothing, or
a command issue. -/
theorem transact_idle_cases {s : State} {x : Transaction} (hb : s.busy = false) (ha : admitted s x = true) :
    (∃ r, transact x s = .next (answer r s)) ∨
    (∃ a v, x = .hostWrite a v ∧ a < s.hostCap ∧ transact x s = .next { s with host := Memory.store s.host a v }) ∨
    (∃ a v, x = .payWrite a v ∧ a < s.payCap ∧ transact x s = .next { s with pay := Memory.store s.pay a v }) ∨
    (∃ a v, x = .bitWrite a v ∧ a < s.bitCap ∧ transact x s = .next { s with bits := Memory.store s.bits a v }) ∨
    (∃ n v, x = .regWrite (n + 1) v ∧ transact x s = .next (s.writeReg (n + 1) v)) ∨
    (∃ w, x = .regWrite 0 w ∧ transact x s = .next (issue w s)) := by
  have ht : transact x s = admitOr (transactIdle s x) := by simp [transact, ha, hb]
  cases x with
  | regRead n =>
    obtain ⟨v, hv⟩ := readReg_some s (n := n) (by simpa [admitted] using ha)
    exact .inl ⟨.word v, by simp only [ht, transactIdle, hv, Option.map_some, admitOr]⟩
  | regWrite n v =>
    cases n with
    | zero => exact .inr (.inr (.inr (.inr (.inr ⟨v, rfl, ht⟩))))
    | succ n => exact .inr (.inr (.inr (.inr (.inl ⟨n, v, rfl, ht⟩))))
  | bufRead sp a =>
    refine .inl ?_
    cases sp <;> simp only [admitted, decide_eq_true_eq] at ha
    · exact ⟨.byte (s.hostAt a), by simp only [ht, transactIdle, State.readHost, ha, if_true, Option.map_some, admitOr]⟩
    · exact ⟨.byte (s.payAt a), by simp only [ht, transactIdle, State.readPay, ha, if_true, Option.map_some, admitOr]⟩
    · exact ⟨.bit (s.bitAt a), by simp only [ht, transactIdle, State.readBit, ha, if_true, Option.map_some, admitOr]⟩
  | hostWrite a v =>
    simp only [admitted, decide_eq_true_eq] at ha
    exact .inr (.inl ⟨a, v, rfl, ha, by simp only [ht, transactIdle, State.writeHost, ha, if_true, admitOr]⟩)
  | payWrite a v =>
    simp only [admitted, decide_eq_true_eq] at ha
    exact .inr (.inr (.inl ⟨a, v, rfl, ha, by simp only [ht, transactIdle, State.writePay, ha, if_true, admitOr]⟩))
  | bitWrite a v =>
    simp only [admitted, decide_eq_true_eq] at ha
    exact .inr (.inr (.inr (.inl ⟨a, v, rfl, ha, by simp only [ht, transactIdle, State.writeBit, ha, if_true, admitOr]⟩)))

/-- Everything an admitted transaction can do while busy: nothing but a reply (40_sequencer.md R105). -/
theorem transact_busy_cases {s : State} {x : Transaction} (hb : s.busy = true) (ha : admitted s x = true) :
    transact x s = .next s ∨ (∃ r, transact x s = .next (answer r s)) ∨ ∃ r, transact x s = .next (answerFree r s) := by
  have ht : transact x s = .next (transactBusy s x) := by simp [transact, ha, hb]
  rw [ht]
  cases x with
  | regRead n =>
    by_cases h : n = 1
    · exact .inr (.inl ⟨.word s.status, by simp only [transactBusy, h, if_true]⟩)
    · exact .inr (.inr ⟨fun d => .word (Config.busyWord d), by simp only [transactBusy, h, if_false]⟩)
  | bufRead sp a =>
    refine .inr (.inr ?_)
    cases sp
    · exact ⟨fun d => .byte (Config.busyByte d), rfl⟩
    · exact ⟨fun d => .byte (Config.busyByte d), rfl⟩
    · exact ⟨fun d => .bit (Config.busyBit d), rfl⟩
  | regWrite n v => exact .inl rfl
  | hostWrite a v => exact .inl rfl
  | payWrite a v => exact .inl rfl
  | bitWrite a v => exact .inl rfl

/-- A transaction that is not admitted is refused (40_sequencer.md R104). -/
theorem transact_not_admitted {s : State} {x : Transaction} (ha : admitted s x = false) :
    transact x s = .refused .notAdmitted := by simp [transact, ha]

/-- A register write that is no command issue keeps everything but HLEN, PLEN, BLEN and LIMIT. -/
theorem writeReg_frame (s : State) (n : Nat) (v : Word) :
    s.writeReg n v = { s with
      hlen := (s.writeReg n v).hlen, plen := (s.writeReg n v).plen, blen := (s.writeReg n v).blen,
      limit := (s.writeReg n v).limit } := by
  unfold State.writeReg
  split <;> rfl

/-! ### Command issue -/

/-- Everything a command issue can do: an error, or the start of the command decoded. -/
theorem issue_cases (w : Word) (s : State) :
    (∃ e, issue w s = failedState w e s) ∨
      ∃ c, decode w = .ok c ∧ inRangeOf c s = true ∧ overCapacityOf c s = false ∧
        issue w s = { startedState c s with cmd := w } := by
  cases h : decode w with
  | error r => exact .inl ⟨_, issue_illegal s h⟩
  | ok c =>
    have hi : issue w s = checkAndStart (inRangeOf c s) (overCapacityOf c s) (opcodeOf c) (countOf c s) (latchCommand w s) := by
      unfold issue
      rw [h]
      simp only [checksOf_eq, inRangeOf_latch, overCapacityOf_latch, countOf_latch]
    rw [hi]
    cases hr : inRangeOf c s
    · exact .inl ⟨.bounds, by simp only [checkAndStart, if_true, raise_latch]; rfl⟩
    · cases ho : overCapacityOf c s
      · refine .inr ⟨c, rfl, hr, ho, ?_⟩
        simp only [checkAndStart, Bool.true_eq_false, Bool.false_eq_true, if_false, start_latch]
        rfl
      · exact .inl ⟨.capacity, by simp only [checkAndStart, Bool.true_eq_false, if_true, if_false, raise_latch]; rfl⟩

end Sys2Proof.Machine
end

