-- ==== Sys2Proof/Laws/Runs.lean ====
section
/-! SUPPORT. Runs of several steps, and the step of each script line. -/

namespace Sys2Proof.Machine

theorem run_next {s t : State} (h : step s = .next t) (k : Nat) : core.run (k + 1) s = core.run k t := by
  have h' : core.step s = .next t := h
  simp only [Host.Core.run, h']

theorem run_add (j k : Nat) : ∀ {s t : State}, core.run j s = .next t → core.run (j + k) s = core.run k t := by
  induction j with
  | zero => intro s t h; cases h; simp
  | succ j ih =>
    intro s t h
    rw [show j + 1 + k = (j + k) + 1 by omega]
    cases e : step s with
    | next u =>
      rw [run_next e] at h ⊢
      exact ih h
    | fault r =>
      have h' : core.step s = .fault r := e
      simp only [Host.Core.run, h'] at h
      cases h
    | refused r =>
      have h' : core.step s = .refused r := e
      simp only [Host.Core.run, h'] at h
      cases h

/-- With nothing scheduled the sequencer has the turn. -/
theorem step_of_empty {s : State} (h : s.schedule = []) : step s = sequencerTurn s := by
  simp only [step, nextTurn, h]

/-- The first entry of the schedule has the turn. -/
theorem step_of_cons {s : State} {t : Turn} {rest : List Turn} (h : s.schedule = t :: rest) :
    step s = takeTurn t { s with schedule := rest } := by
  simp only [step, nextTurn, h]

/-- `cmd` while idle is the issue of its word. -/
theorem step_cmd {s : State} {w : Word} {rest : List Turn} (hb : s.busy = false)
    (hq : s.schedule = .host (.regWrite 0 w) :: rest) : step s = .next (issue w { s with schedule := rest }) := by
  have hb' : State.busy { s with schedule := rest } = false := hb
  simp [step_of_cons hq, takeTurn, transact, admitted, hb', transactIdle, admitOr]

@[simp] theorem scriptWait_nil : scriptWait [] = [.sequencer, .wait []] := rfl

@[simp] theorem scriptWait_cons (g : Nat) (gaps : List Nat) :
    scriptWait (g :: gaps) = List.replicate g .sequencer ++ [.wait gaps] := rfl

/-- A scheduled sequencer turn. -/
theorem step_sequencer {s : State} {rest : List Turn} (hq : s.schedule = .sequencer :: rest) :
    step s = sequencerTurn { s with schedule := rest } := by
  simp only [step_of_cons hq, takeTurn]

/-- Sequencer turns while idle pass without effect. -/
theorem run_sequencers_idle {s : State} (hb : s.busy = false) (g : Nat) (q : List Turn) :
    core.run g { s with schedule := List.replicate g .sequencer ++ q } = .next { s with schedule := q } := by
  induction g with
  | zero => rfl
  | succ g ih =>
    have hb' : State.busy { s with schedule := List.replicate g .sequencer ++ q } = false := hb
    have hs : step { s with schedule := List.replicate (g + 1) .sequencer ++ q } = _ :=
      (step_sequencer (rest := List.replicate g .sequencer ++ q) rfl).trans (sequencerTurn_idle hb')
    exact (run_next hs g).trans ih

/-- A poll of `wait` while busy: the line goes on at the pace that is left. -/
theorem step_wait_busy {s : State} {gaps : List Nat} {rest : List Turn} (hb : s.busy = true)
    (hq : s.schedule = .wait gaps :: rest) :
    step s = .next { s with schedule := scriptWait gaps ++ rest, replies := .word s.status :: s.replies } := by
  have hb' : State.busy { s with schedule := rest } = true := hb
  simp only [step_of_cons hq, takeTurn, waitTurn, hb', if_true, answer]

/-- A poll of `wait` while idle: the line ends. -/
theorem step_wait_idle {s : State} {gaps : List Nat} {rest : List Turn} (hb : s.busy = false)
    (hq : s.schedule = .wait gaps :: rest) :
    step s = .next { s with schedule := rest, replies := .word s.status :: s.replies } := by
  have hb' : State.busy { s with schedule := rest } = false := hb
  simp [step_of_cons hq, takeTurn, waitTurn, hb', answer]

/-- `rd STATUS ; stop if ERR` in front of `tail` in front of `rest`. -/
theorem step_unlessError {s : State} {tail rest : List Turn} (hq : s.schedule = scriptUnlessError tail ++ rest) :
    step s = .next { s with
      schedule := if s.err then rest else tail ++ rest, replies := .word s.status :: s.replies } := by
  have hq' : s.schedule = .stopOnError tail.length :: (tail ++ rest) := hq
  simp only [step_of_cons hq', takeTurn, stopOnErrorTurn]
  cases h : s.err
  · have h' : State.err { s with schedule := tail ++ rest } = false := h
    simp [h', answer]
  · have h' : State.err { s with schedule := tail ++ rest } = true := h
    simp [h', answer]

/-- `rd STATUS` while idle. -/
theorem step_rdStatus {s : State} {rest : List Turn} (hb : s.busy = false) (hq : s.schedule = scriptRd 1 ++ rest) :
    step s = .next { s with schedule := rest, replies := .word s.status :: s.replies } := by
  have hb' : State.busy { s with schedule := rest } = false := hb
  have hq' : s.schedule = .host (.regRead 1) :: rest := hq
  simp [step_of_cons hq', takeTurn, transact, admitted, hb', transactIdle, State.readReg, admitOr, answer]

/-- Two states with the same block differ in the model's own bookkeeping alone. -/
theorem eq_of_block {u v : State} (h : u.block = v.block) :
    u = { v with schedule := u.schedule, replies := u.replies, draws := u.draws } :=
  congrArg (fun x : State => { x with schedule := u.schedule, replies := u.replies, draws := u.draws }) h

end Sys2Proof.Machine
end

