-- ==== Sys2Proof/Laws/Sequences.lean ====
section
/-! SUPPORT. The four functions applied to ranges of a buffer: what `packBytes`, `unpackBits`, `injectBits` and
`extractBits` give for a sequence listed by index. -/

namespace Sys2Proof.Machine

theorem packBytes_append (ps qs : List Byte) : packBytes (ps ++ qs) = packBytes ps ++ packBytes qs := by
  induction ps with
  | nil => rfl
  | cons p ps ih => simp [packBytes, ih]

theorem range_eight_mul_succ (n : Nat) :
    List.range (8 * (n + 1)) = List.range (8 * n) ++ [8 * n, 8 * n + 1, 8 * n + 2, 8 * n + 3, 8 * n + 4, 8 * n + 5,
      8 * n + 6, 8 * n + 7] := by
  rw [show 8 * (n + 1) = 8 * n + 8 by omega, List.range_add]
  rfl

/-- Packing a sequence listed by index. -/
theorem packBytes_map_range (f : Nat → Byte) (n : Nat) :
    packBytes ((List.range n).map f) = (List.range (8 * n)).map fun i => msbbit (f (i / 8)) (i % 8) := by
  induction n with
  | zero => rfl
  | succ n ih =>
    rw [List.range_succ, List.map_append, packBytes_append, ih, range_eight_mul_succ, List.map_append]
    congr 1
    have d : ∀ k < 8, (8 * n + k) / 8 = n ∧ (8 * n + k) % 8 = k := fun k hk => by omega
    have d0 : 8 * n / 8 = n ∧ 8 * n % 8 = 0 := d 0 (by omega)
    simp [packBytes, packByte, d, d0]

theorem map_range_add_eight {α : Type} (b : Nat → α) (m : Nat) :
    (List.range (m + 8)).map b = b 0 :: b 1 :: b 2 :: b 3 :: b 4 :: b 5 :: b 6 :: b 7 ::
      (List.range m).map fun i => b (i + 8) := by
  rw [show m + 8 = 8 + m by omega, List.range_add, List.map_append, List.map_map]
  simp only [Function.comp_def, Nat.add_comm 8]
  rfl

/-- Unpacking a sequence listed by index. -/
theorem unpackBits_map_range (b : Nat → Bit) (m : Nat) :
    unpackBits ((List.range m).map b) = (List.range (m / 8)).map fun j =>
      byteOfBits (b (8 * j)) (b (8 * j + 1)) (b (8 * j + 2)) (b (8 * j + 3)) (b (8 * j + 4)) (b (8 * j + 5))
        (b (8 * j + 6)) (b (8 * j + 7)) := by
  induction m using Nat.strong_induction_on generalizing b with
  | _ m ih =>
    by_cases h : m < 8
    · rw [Nat.div_eq_of_lt h]
      interval_cases m <;> rfl
    · obtain ⟨k, rfl⟩ : ∃ k, m = k + 8 := ⟨m - 8, by omega⟩
      rw [map_range_add_eight, unpackBits, ih k (by omega), show (k + 8) / 8 = k / 8 + 1 by omega,
        List.range_succ_eq_map, List.map_cons, List.map_map]
      simp [Function.comp_def, Nat.mul_add, Nat.add_right_comm]

/-- Overwriting the LSBs of a sequence listed by index. -/
theorem overwriteLsbs_map_range (h : Nat → Byte) (b : Nat → Bit) (n m : Nat) (hm : m ≤ n) :
    overwriteLsbs ((List.range n).map h) ((List.range m).map b)
      = (List.range n).map fun i => if i < m then setlsb (h i) (b i) else h i := by
  induction n generalizing h b m with
  | zero =>
    obtain rfl : m = 0 := by omega
    rfl
  | succ n ih =>
    cases m with
    | zero => simp
    | succ m =>
      simp only [List.range_succ_eq_map, List.map_cons, List.map_map, overwriteLsbs, Function.comp_def,
        Nat.succ_eq_add_one]
      rw [ih _ _ _ (by omega)]
      simp

/-- Injecting a sequence listed by index. -/
theorem injectBits_map_range (h : Nat → Byte) (b : Nat → Bit) (n m : Nat) (hm : m ≤ n) :
    injectBits ((List.range n).map h) ((List.range m).map b)
      = some ((List.range n).map fun i => if i < m then setlsb (h i) (b i) else h i) := by
  rw [injectBits, if_pos (by simpa using hm), overwriteLsbs_map_range h b n m hm]

/-- Extracting from a sequence listed by index. -/
theorem extractBits_map_range (h : Nat → Byte) (n m : Nat) (hm : m ≤ n) :
    extractBits ((List.range n).map h) m = some ((List.range m).map fun i => lsb (h i)) := by
  rw [extractBits, if_pos (by simpa using hm), ← List.map_take, List.take_range, Nat.min_eq_left hm, List.map_map]
  rfl

end Sys2Proof.Machine
end

