-- ==== Sys2Proof/Tests/Slice0.lean ====
section
/-! SUPPORT. The model's own tests. Expected results come from spec/: the encodings of 30_encoding.md R83, the vectors of
95_test_vectors.md (by their ids), 00_scope.md R5, 40_sequencer.md R104. The witnesses at the end show, for every
statement with hypotheses, a concrete state and operands that meet them. -/

namespace Sys2Proof.Machine

/-! ### Words written out from the encoding: bits 31:8 zero, then the opcode -/

theorem test_decode_pack : decode 0b00000000000000000000000000000001#32 = .ok .pack := by decide
theorem test_decode_unpack : decode 0b00000000000000000000000000000010#32 = .ok .unpack := by decide
theorem test_decode_inject : decode 0b00000000000000000000000000000011#32 = .ok .inject := by decide
theorem test_decode_extract : decode 0b00000000000000000000000000000100#32 = .ok .extract := by decide
theorem test_decode_extractl : decode 0b00000000000000000000000000000101#32 = .ok .extractl := by decide
theorem test_decode_opcode_unassigned : decode 0#32 = .error .opcodeUnassigned ∧ decode 6#32 = .error .opcodeUnassigned ∧
    decode 0xFF#32 = .error .opcodeUnassigned := by decide
theorem test_decode_zero_field : decode 0x100#32 = .error .zeroFieldNonzero ∧ decode 0x101#32 = .error .zeroFieldNonzero ∧
    decode 0x80000001#32 = .error .zeroFieldNonzero ∧ decode 0xFFFFFFFF#32 = .error .zeroFieldNonzero := by decide

/-! ### Well-formedness: the parameters of R5, the admission of R104 -/

theorem test_wf_instance : capacitiesWellFormed 64 8 = true ∧ capacitiesWellFormed 1 1 = true ∧
    capacitiesWellFormed 8 1 = true ∧ capacitiesWellFormed 4294967288 536870911 = true := by decide
theorem test_wf_payCap_zero_refused : capacitiesWellFormed 1 0 = false := by decide
theorem test_wf_payCap_too_large_refused : capacitiesWellFormed 64 536870912 = false := by decide
theorem test_wf_hostCap_zero_refused : capacitiesWellFormed 0 8 = false := by decide
theorem test_wf_hostCap_above_bitCap_refused : capacitiesWellFormed 65 8 = false := by decide
theorem test_admitted_register_refused : admitted State.reset (.regRead 9) = false ∧
    admitted State.reset (.regWrite 9 0#32) = false ∧ admitted State.reset (.regRead 8) = true := by decide
theorem test_admitted_index_refused : admitted State.reset (.bufRead .host 64) = false ∧
    admitted State.reset (.bufRead .pay 8) = false ∧ admitted State.reset (.bufRead .bit 64) = false ∧
    admitted State.reset (.hostWrite 64 0#8) = false ∧ admitted State.reset (.payWrite 8 0#8) = false ∧
    admitted State.reset (.bitWrite 64 0#1) = false := by decide

/-! ### Small states -/

/-- After reset, with PAY[0..2) = A5 3C. -/
def payState (plen : Word) : State := { State.reset with pay := [(0, 0xA5#8), (1, 0x3C#8)], plen := plen, blen := 5#32 }

/-- After reset, with eleven bits of BIT, as in K5. -/
def bitState (blen : Word) : State :=
  { State.reset with
    bits := [(0, 0#1), (1, 1#1), (2, 0#1), (3, 0#1), (4, 1#1), (5, 0#1), (6, 0#1), (7, 0#1), (8, 1#1), (9, 0#1), (10, 1#1)]
    pay := [(0, 0xDD#8), (1, 0xDD#8)]
    plen := 7#32, blen := blen }

/-- After reset, with six bytes of HOST and five bits of BIT, as in I1 to I4. -/
def injectState (hlen blen : Word) : State :=
  { State.reset with
    host := [(0, 0xFF#8), (1, 0x00#8), (2, 0x7E#8), (3, 0x81#8), (4, 0x55#8), (5, 0xAA#8)]
    bits := [(0, 0#1), (1, 1#1), (2, 1#1), (3, 0#1), (4, 1#1)]
    hlen := hlen, blen := blen }

/-- After reset, with four bytes of HOST, as in E1 and E5, and BIT[3], BIT[4] = 1. -/
def extractState (hlen limit : Word) : State :=
  { State.reset with
    host := [(0, 0xFE#8), (1, 0x01#8), (2, 0x7F#8), (3, 0x80#8)], bits := [(3, 1#1), (4, 1#1)]
    hlen := hlen, blen := 9#32, limit := limit }

/-- The state after, if a step answers one. -/
def after (o : Host.Outcome State Fault Refusal) : State :=
  match o with
  | .next t => t
  | .fault _ => State.reset
  | .refused _ => State.reset

/-- A step answers this next state, as a Bool: outcomes have no decidable equality of their own. -/
def answers (o : Host.Outcome State Fault Refusal) (t : State) : Bool :=
  match o with
  | .next u => decide (u = t)
  | .fault _ => false
  | .refused _ => false

theorem next_of_answers {o : Host.Outcome State Fault Refusal} {t : State} (h : answers o t = true) : o = .next t := by
  cases o with
  | next u => simpa [answers] using h
  | fault r => cases h
  | refused r => cases h

/-! ### The five commands, 95_test_vectors.md section 3 -/

/-- K1. -/
theorem test_pack : exec .pack (payState 2#32) = .next { payState 2#32 with
    bits := [(0, 1#1), (1, 0#1), (2, 1#1), (3, 0#1), (4, 0#1), (5, 1#1), (6, 0#1), (7, 1#1), (8, 0#1), (9, 0#1), (10, 1#1),
      (11, 1#1), (12, 1#1), (13, 1#1), (14, 0#1), (15, 0#1)]
    blen := 16#32, cmd := 1#32, status := 2#32, idx := 16#32, op := 1#8, cnt := 16#32 } := next_of_answers (by decide)
/-- K3. -/
theorem test_pack_bounds : exec .pack (payState 9#32) =
    .next { payState 9#32 with cmd := 1#32, status := 0x36#32, idx := 0#32 } := next_of_answers (by decide)
/-- K5. -/
theorem test_unpack : exec .unpack (bitState 11#32) = .next { bitState 11#32 with
    pay := [(0, 0x48#8), (1, 0xDD#8)], plen := 1#32, cmd := 2#32, status := 2#32, idx := 8#32, op := 2#8, cnt := 8#32 } := next_of_answers (by decide)
/-- K7. -/
theorem test_unpack_bounds : exec .unpack (bitState 65#32) =
    .next { bitState 65#32 with cmd := 2#32, status := 0x36#32, idx := 0#32 } := next_of_answers (by decide)
/-- The end state of I1. -/
def injectedState : State :=
  { injectState 4#32 4#32 with
    host := [(0, 0xFE#8), (1, 0x01#8), (2, 0x7F#8), (3, 0x80#8), (4, 0x55#8), (5, 0xAA#8)]
    cmd := 3#32, status := 2#32, idx := 4#32, op := 3#8, cnt := 4#32 }

/-- I1. -/
theorem test_inject : exec .inject (injectState 4#32 4#32) = .next injectedState := next_of_answers (by decide)
/-- I3, I6, I7. -/
theorem test_inject_errors : (after (exec .inject (injectState 4#32 5#32))).status = 0x16#32 ∧
    (after (exec .inject (injectState 4#32 5#32))).host = (injectState 4#32 5#32).host ∧
    (after (exec .inject (injectState 65#32 4#32))).status = 0x36#32 ∧
    (after (exec .inject (injectState 4#32 65#32))).status = 0x36#32 := by decide
/-- E1. -/
theorem test_extract : exec .extract (extractState 4#32 0#32) = .next { extractState 4#32 0#32 with
    bits := [(0, 0#1), (1, 1#1), (2, 1#1), (3, 0#1), (4, 1#1)]
    blen := 4#32, cmd := 4#32, status := 2#32, idx := 4#32, op := 4#8, cnt := 4#32 } := next_of_answers (by decide)
/-- E3. -/
theorem test_extract_bounds : exec .extract (extractState 65#32 0#32) =
    .next { extractState 65#32 0#32 with cmd := 4#32, status := 0x36#32, idx := 0#32 } := next_of_answers (by decide)
/-- E5. -/
theorem test_extractl : exec .extractl (extractState 4#32 3#32) = .next { extractState 4#32 3#32 with
    bits := [(0, 0#1), (1, 1#1), (2, 1#1), (3, 1#1), (4, 1#1)]
    blen := 3#32, cmd := 5#32, status := 2#32, idx := 3#32, op := 5#8, cnt := 3#32 } := next_of_answers (by decide)
/-- E9, E8. -/
theorem test_extractl_limits : (after (exec .extractl (extractState 65#32 0#32))).status = 0x36#32 ∧
    (after (exec .extractl (extractState 4#32 0xFFFFFFFF#32))).blen = 4#32 := by decide

/-! ### Functions, vectors F1, F8, F13, F14, F15 -/

theorem test_functions : packBytes [0xA5#8, 0x3C#8] =
      [1#1, 0#1, 1#1, 0#1, 0#1, 1#1, 0#1, 1#1, 0#1, 0#1, 1#1, 1#1, 1#1, 1#1, 0#1, 0#1] ∧
    unpackBits [0#1, 1#1, 0#1, 0#1, 1#1, 0#1, 0#1, 0#1, 1#1, 0#1, 1#1] = [0x48#8] ∧
    injectBits [0xFF#8, 0x00#8, 0x7E#8] [1#1, 1#1] = some [0xFF#8, 0x01#8, 0x7E#8] ∧
    injectBits [0#8] [1#1, 1#1] = none ∧ extractBits [0xFE#8, 0x01#8, 0x7F#8, 0x80#8] 3 = some [0#1, 1#1, 1#1] := by
  decide

/-! ### Registers, errors, the busy lock, reset and steps -/

/-- G1, read from reset. -/
theorem test_reset_registers : State.reset.readReg 7 = some 64#32 ∧ State.reset.readReg 8 = some 8#32 ∧
    State.reset.readReg 1 = some 0#32 ∧ State.reset.readReg 4 = some 0#32 ∧ State.reset.readReg 9 = none := by decide
/-- G3. -/
theorem test_writes_ignored : transact (.regWrite 1 0xFF#32) State.reset = .next State.reset ∧
    transact (.regWrite 6 7#32) State.reset = .next State.reset ∧
    transact (.regWrite 7 1#32) State.reset = .next State.reset :=
  ⟨next_of_answers (by decide), next_of_answers (by decide), next_of_answers (by decide)⟩
/-- The first part of G4. -/
theorem test_illegal_word : transact (.regWrite 0 6#32) State.reset =
    .next { State.reset with cmd := 6#32, status := 0x26#32 } := next_of_answers (by decide)

/-- After reset, with given lengths and limit. -/
def lens (hlen plen blen limit : Word) : State :=
  { State.reset with hlen := hlen, plen := plen, blen := blen, limit := limit }

/-- A PACK of one byte before its last bit step. -/
def runningPack : State :=
  { payState 1#32 with cmd := 1#32, status := 1#32, idx := 7#32, op := 1#8, cnt := 8#32 }

/-- A PACK of one byte before its finish step. -/
def finishingPack : State := { runningPack with idx := 8#32 }

/-- The last bit of A5 is 1 (41_pack_unpack.md R123). -/
theorem test_bit_step : step runningPack = .next { finishingPack with bits := [(7, 1#1)] } := next_of_answers (by decide)
/-- The finish step (40_sequencer.md R109). -/
theorem test_finish_step : step finishingPack = .next { finishingPack with blen := 8#32, status := 2#32 } := next_of_answers (by decide)
/-- A second command while busy is dropped (40_sequencer.md R105). -/
theorem test_command_while_busy : transact (.regWrite 0 3#32) runningPack = .next runningPack := next_of_answers (by decide)
/-- Reset during a command (70_reset_and_hazards.md R232). -/
theorem test_reset_while_busy : step { runningPack with schedule := [.reset] } = .next { State.reset with epoch := 1 } := next_of_answers (by decide)
/-- `cmd PACK`, `wait` with PLEN = 0 (K2): one poll sees BUSY, the command ends, the next poll ends the line. -/
theorem test_wait_ends : core.run 4 { State.reset with schedule := scriptCmd .pack ++ scriptWait [0] } =
    .next { State.reset with
      cmd := 1#32, status := 2#32, op := 1#8, replies := [.word 2#32, .word 1#32] } := next_of_answers (by decide)
/-- EMBED with PLEN = 9 in 8 PAY cells (44_host_sequences.md R180): the stop skips the rest of EMBED, and no more. -/
theorem test_stop_after_error :
    core.run 4 { lens 64#32 9#32 0#32 0#32 with schedule := scriptEmbed [] [] ++ scriptWr 3 8#32 } =
      .next { lens 64#32 9#32 0#32 0#32 with
        cmd := 1#32, status := 0x36#32, schedule := scriptWr 3 8#32, replies := [.word 0x36#32, .word 0x36#32] } :=
  next_of_answers (by decide)
/-- The word placed for the next step is decoded and run. -/
theorem test_fetch_word : step (State.reset.withFetchWord 32 1) =
    .next { State.reset with cmd := 1#32, status := 2#32, op := 1#8 } := next_of_answers (by decide)

/-! ### Witnesses: for every statement with hypotheses, values that meet them, at the ends of their ranges -/

/-- A running command of the spec's test instance. -/
def running (op : BitVec 8) (cnt idx hlen plen blen : Word) : State :=
  { lens hlen plen blen 64#32 with status := 1#32, op := op, cnt := cnt, idx := idx }

theorem inv_of_idle (s : State) (hc : s.capacitiesOk) (hh : s.host = []) (hp : s.pay = []) (hb : s.bits = [])
    (hs : s.status = 0#32) : Inv s := by
  refine ⟨hc, by rw [hh]; exact Memory.nil_wf _, by rw [hp]; exact Memory.nil_wf _, by rw [hb]; exact Memory.nil_wf _,
    by rw [hs]; exact List.mem_cons_self, fun h => ?_, fun h => ?_⟩
  · rw [busy_of_status hs] at h
    exact absurd h (by decide)
  · rw [err_of_status hs] at h
    exact absurd h (by decide)

theorem inv_running : Inv (running 1#8 64#32 63#32 0#32 8#32 0#32) where
  capacities := rfl
  hostWf := Memory.nil_wf _
  payWf := Memory.nil_wf _
  bitsWf := Memory.nil_wf _
  statusLegal := by unfold legalStatus; decide
  running := fun _ => ⟨rfl, rfl, rfl, by decide⟩
  errIdx := fun h => absurd h (by decide)

theorem witness_DecodeAndEncodeAgree : Instr.extractl.wellFormed = true ∧ decode 5#32 = .ok .extractl := by decide

theorem witness_RegRead : (0 ≤ 8 ∧ 8 ≤ 8) ∧ State.reset.busy = false ∧ runningPack.busy = true ∧
    legalStatus runningPack.status ∧ (0 ≠ 1 ∧ 8 ≠ 1) :=
  ⟨by decide, by decide, by decide, by unfold legalStatus; decide, by decide⟩

theorem witness_RegWrite : State.reset.busy = false ∧ runningPack.busy = true ∧ 0 ≤ 8 ∧ 8 ∈ [1, 6, 7, 8] := by decide

theorem witness_BufRead_BufWrite : (63 < State.reset.hostCap ∧ 7 < State.reset.payCap ∧ 63 < State.reset.bitCap ∧
      State.reset.busy = false) ∧
    (0 < runningPack.hostCap ∧ 63 < runningPack.hostCap ∧ 7 < runningPack.payCap ∧ 63 < runningPack.bitCap ∧
      runningPack.busy = true) ∧ 62 ≠ 63 := by decide

theorem witness_BusyBlockIsLocked : runningPack.busy = true ∧ admitted runningPack (.regWrite 0 1#32) = true ∧
    admitted runningPack (.hostWrite 63 0#8) = true := by decide

theorem witness_BusyReadsRevealOnlyStatus : ∃ u₁ u₂, runningPack.busy = true ∧ runningPack.status = finishingPack.status ∧
    runningPack.hcap = finishingPack.hcap ∧ runningPack.pcap = finishingPack.pcap ∧
    runningPack.draws = finishingPack.draws ∧ runningPack.replies = finishingPack.replies ∧
    transact (.regRead 6) runningPack = .next u₁ ∧ transact (.regRead 6) finishingPack = .next u₂ :=
  ⟨_, _, by decide, rfl, rfl, rfl, rfl, rfl, rfl, rfl⟩

theorem witness_OnlyFinishOrResetClearsBusy : ∃ t u : State, finishingPack.busy = true ∧ step finishingPack = .next t ∧
    t.busy = false ∧ step { finishingPack with schedule := [.reset] } = .next u ∧ u.busy = false :=
  ⟨_, _, by decide, test_finish_step, by decide, rfl, by decide⟩

theorem witness_IdleStatements : State.reset.busy = false ∧ (issue 6#32 State.reset).err = true := by decide

theorem witness_IllegalWord : ((0x100#32).extractLsb' 8 24 ≠ 0#24) ∧ ((0x0#32).extractLsb' 0 8 = 0x00#8) ∧
    (0x06#8 ≤ (0x6#32).extractLsb' 0 8) ∧ 0x06#8 ≤ (0xFF#32).extractLsb' 0 8 := by decide

/-- The capacity statements and the whole-command statements: each range at its upper end, and one above it. -/
theorem witness_Capacities : State.reset.capacitiesOk ∧ (lens 64#32 8#32 64#32 64#32).capacitiesOk := ⟨rfl, rfl⟩

theorem witness_StartedCommand :
    (inRangeOf .pack (lens 0#32 8#32 0#32 0#32) = true ∧ 63 < countOf .pack (lens 0#32 8#32 0#32 0#32)) ∧
    (inRangeOf .unpack (lens 0#32 0#32 64#32 0#32) = true ∧ 63 < countOf .unpack (lens 0#32 0#32 64#32 0#32)) ∧
    (inRangeOf .inject (lens 64#32 0#32 64#32 0#32) = true ∧ overCapacityOf .inject (lens 64#32 0#32 64#32 0#32) = false ∧
      63 < countOf .inject (lens 64#32 0#32 64#32 0#32)) ∧
    (inRangeOf .extract (lens 64#32 0#32 0#32 0#32) = true ∧ 63 < countOf .extract (lens 64#32 0#32 0#32 0#32)) ∧
    inRangeOf .extractl (lens 64#32 0#32 0#32 64#32) = true ∧ 63 < countOf .extractl (lens 64#32 0#32 0#32 64#32) := by
  decide

theorem witness_PackBitStep : (running 1#8 64#32 63#32 0#32 8#32 0#32).busy = true ∧
    (running 1#8 64#32 63#32 0#32 8#32 0#32).idx.toNat < (running 1#8 64#32 63#32 0#32 8#32 0#32).cnt.toNat ∧
    (running 1#8 64#32 63#32 0#32 8#32 0#32).idx.toNat < (running 1#8 64#32 63#32 0#32 8#32 0#32).bitCap := by decide

theorem witness_OtherBitSteps : ∀ op ∈ [2#8, 3#8, 4#8, 5#8], (running op 64#32 63#32 64#32 0#32 64#32).busy = true ∧
    (running op 64#32 63#32 64#32 0#32 64#32).op = op ∧
    (running op 64#32 63#32 64#32 0#32 64#32).idx.toNat < (running op 64#32 63#32 64#32 0#32 64#32).cnt.toNat ∧
    (running op 64#32 63#32 64#32 0#32 64#32).idx.toNat < (running op 64#32 63#32 64#32 0#32 64#32).bitCap ∧
    (running op 64#32 63#32 64#32 0#32 64#32).idx.toNat < (running op 64#32 63#32 64#32 0#32 64#32).hostCap := by decide

theorem witness_FinishStep : ∀ op ∈ [1#8, 2#8, 3#8, 4#8, 5#8], (running op 64#32 64#32 64#32 8#32 64#32).busy = true ∧
    (running op 64#32 64#32 64#32 8#32 64#32).op = op ∧
    (running op 64#32 64#32 64#32 8#32 64#32).idx = (running op 64#32 64#32 64#32 8#32 64#32).cnt := by decide

theorem witness_FinishStep_done : State.status { State.reset with status := 2#32 } = 0x00000002#32 := rfl

theorem witness_FinishStep_legal : legalStatus (running 1#8 64#32 64#32 64#32 8#32 64#32).status := by
  unfold legalStatus
  decide

theorem witness_RunningCommand : Inv (running 1#8 64#32 63#32 0#32 8#32 0#32) ∧
    (running 1#8 64#32 63#32 0#32 8#32 0#32).busy = true ∧ (running 1#8 64#32 63#32 0#32 8#32 0#32).schedule = [] ∧
    (running 1#8 64#32 63#32 0#32 8#32 0#32).idx.toNat + 1 ≤ (running 1#8 64#32 63#32 0#32 8#32 0#32).cnt.toNat :=
  ⟨inv_running, by decide, rfl, by decide⟩

theorem witness_Stepwise : (lens 2#32 0#32 2#32 0#32).capacitiesOk ∧ starts .inject (lens 2#32 0#32 2#32 0#32) ∧
    (∀ t ∈ [Turn.host (.regRead 1), .sequencer, .host (.hostWrite 63 0#8), .sequencer],
      quietTurn (lens 2#32 0#32 2#32 0#32) t = true) ∧
    [Turn.host (.regRead 1), .sequencer, .host (.hostWrite 63 0#8), .sequencer].count .sequencer =
      countOf .inject (lens 2#32 0#32 2#32 0#32) :=
  ⟨rfl, ⟨by decide, by decide, by decide⟩, by decide, by decide⟩

theorem witness_BitStepsCommute : (0 : Nat) ≠ 63 := by decide

/-- PACK: PLEN at 8 starts, at 9 fails. UNPACK: BLEN at 64, 65. EXTRACT and EXTRACTL: HLEN at 64, 65. -/
theorem witness_ResultStatements : (lens 64#32 8#32 64#32 0#32).busy = false ∧
    ((lens 64#32 8#32 64#32 0#32).plen.toNat ≤ (lens 64#32 8#32 64#32 0#32).payCap ∧
      (lens 64#32 9#32 64#32 0#32).payCap < (lens 64#32 9#32 64#32 0#32).plen.toNat) ∧
    ((lens 64#32 8#32 64#32 0#32).blen.toNat ≤ (lens 64#32 8#32 64#32 0#32).bitCap ∧
      (lens 64#32 8#32 65#32 0#32).bitCap < (lens 64#32 8#32 65#32 0#32).blen.toNat) ∧
    (lens 64#32 8#32 64#32 0#32).hlen.toNat ≤ (lens 64#32 8#32 64#32 0#32).hostCap ∧
      (lens 65#32 8#32 64#32 0#32).hostCap < (lens 65#32 8#32 64#32 0#32).hlen.toNat := by decide

/-- INJECT: BLEN = HLEN = 64 starts; BLEN = HLEN + 1 is over capacity, and BLEN = 65 or HLEN = 65 out of range. -/
theorem witness_InjectStatements :
    ((lens 64#32 0#32 64#32 0#32).blen.toNat ≤ (lens 64#32 0#32 64#32 0#32).hlen.toNat ∧
      (lens 64#32 0#32 64#32 0#32).hlen.toNat ≤ (lens 64#32 0#32 64#32 0#32).hostCap ∧
      (lens 64#32 0#32 64#32 0#32).blen.toNat ≤ (lens 64#32 0#32 64#32 0#32).bitCap) ∧
    ((lens 63#32 0#32 64#32 0#32).blen.toNat = (lens 63#32 0#32 64#32 0#32).hlen.toNat + 1 ∧
      (lens 63#32 0#32 64#32 0#32).blen.toNat ≤ (lens 63#32 0#32 64#32 0#32).bitCap) ∧
    ((lens 64#32 0#32 65#32 0#32).bitCap < (lens 64#32 0#32 65#32 0#32).blen.toNat ∧
      (lens 64#32 0#32 65#32 0#32).hlen.toNat < (lens 64#32 0#32 65#32 0#32).blen.toNat) ∧
    (lens 65#32 0#32 64#32 0#32).hostCap < (lens 65#32 0#32 64#32 0#32).hlen.toNat := by decide

theorem witness_Frames : (∃ t, exec .pack (payState 2#32) = .next t) ∧ (∃ t, exec .unpack (bitState 11#32) = .next t) ∧
    (∃ t, exec .inject (injectState 4#32 4#32) = .next t) ∧ (∃ t, exec .extract (extractState 4#32 0#32) = .next t) ∧
    ∃ t, exec .extractl (extractState 4#32 3#32) = .next t :=
  ⟨⟨_, test_pack⟩, ⟨_, test_unpack⟩, ⟨_, test_inject⟩, ⟨_, test_extract⟩, ⟨_, test_extractl⟩⟩

/-- The end state of E1. -/
def extractedState : State :=
  { extractState 4#32 0#32 with
    bits := [(0, 0#1), (1, 1#1), (2, 1#1), (3, 0#1), (4, 1#1)]
    blen := 4#32, cmd := 4#32, status := 2#32, idx := 4#32, op := 4#8, cnt := 4#32 }

theorem witness_ExtractionRepeats : exec .extract (extractState 4#32 0#32) = .next extractedState ∧
    exec .extract extractedState = .next extractedState := ⟨test_extract, next_of_answers (by decide)⟩

theorem witness_ExtractlWithLargeLimit : (lens 64#32 0#32 0#32 64#32).busy = false ∧
    (lens 64#32 0#32 0#32 64#32).hlen.toNat ≤ (lens 64#32 0#32 0#32 64#32).limit.toNat ∧
    (lens 64#32 0#32 0#32 64#32).hlen.toNat ≤ (lens 64#32 0#32 0#32 64#32).hostCap := by decide

/-- I9: INJECT runs on its own end state. -/
theorem witness_InjectTwice : (injectState 4#32 4#32).busy = false ∧
    overCapacityOf .inject (injectState 4#32 4#32) = false ∧ inRangeOf .inject (injectState 4#32 4#32) = true ∧
    exec .inject (injectState 4#32 4#32) = .next injectedState ∧ exec .inject injectedState = .next injectedState :=
  ⟨by decide, by decide, by decide, test_inject, next_of_answers (by decide)⟩

theorem witness_ZeroLength : State.reset.busy = false ∧ State.reset.hlen = 0#32 ∧ State.reset.plen = 0#32 ∧
    State.reset.blen = 0#32 := by decide

/-- One word and state for each clause of the priority statement. -/
theorem witness_FirstApplicableError : (∀ c, decode 6#32 ≠ .ok c) ∧
    (decode 1#32 = .ok .pack ∧ inRangeOf .pack (lens 0#32 9#32 0#32 0#32) = false) ∧
    (decode 3#32 = .ok .inject ∧ inRangeOf .inject (lens 63#32 0#32 64#32 0#32) = true ∧
      overCapacityOf .inject (lens 63#32 0#32 64#32 0#32) = true) ∧
    (inRangeOf .inject (lens 64#32 0#32 64#32 0#32) = true ∧
      overCapacityOf .inject (lens 64#32 0#32 64#32 0#32) = false) ∧
    (lens 64#32 0#32 65#32 0#32).bitCap < (lens 64#32 0#32 65#32 0#32).blen.toNat :=
  ⟨fun c => by cases c <;> decide, by decide, by decide, by decide, by decide⟩

theorem witness_ErrorStays : ∃ t, State.busy { State.reset with status := 0x36#32 } = false ∧
    step { State.reset with status := 0x36#32 } = .next t := ⟨_, by decide, rfl⟩

theorem witness_Reset : State.schedule { runningPack with schedule := [.reset] } = .reset :: [] := rfl

theorem witness_StepKeepsInv : ∃ t, Inv (running 1#8 64#32 63#32 0#32 8#32 0#32) ∧
    step (running 1#8 64#32 63#32 0#32 8#32 0#32) = .next t := ⟨_, inv_running, rfl⟩

/-- The second part of the statement on refusals has its own premise: a step that is refused. -/
theorem witness_StepFromInv : Inv { State.reset with schedule := [.host (.regRead 9)] } ∧
    step { State.reset with schedule := [.host (.regRead 9)] } = .refused .notAdmitted :=
  ⟨inv_of_idle _ rfl rfl rfl rfl rfl, rfl⟩

theorem witness_StepRunsDecodedCommand : State.schedule { State.reset with schedule := [.command 3#32] } =
      .command 3#32 :: [] ∧ decode 3#32 = .ok .inject ∧ decodeTableWord 32 3 = some .inject ∧
    State.schedule { State.reset with schedule := [.host (.regRead 1)] } = .host (.regRead 1) :: [] ∧
    State.reset.schedule = [] := by decide

theorem witness_UnpackFunction : 0 < ([0#1, 1#1, 0#1, 0#1, 1#1, 0#1, 0#1, 0#1].length) / 8 ∧
    ∀ k < 8, [0#1, 1#1, 0#1, 0#1, 1#1, 0#1, 0#1, 0#1][8 * 0 + k]? =
      some ([0#1, 1#1, 0#1, 0#1, 1#1, 0#1, 0#1, 0#1].getD k 0#1) := by decide

theorem witness_LawsOfPackAndUnpack : 8 ∣ [0#1, 1#1, 0#1, 0#1, 1#1, 0#1, 0#1, 0#1].length ∧ [1#1, 0#1, 1#1].length < 8 := by
  decide

theorem witness_InjectFunction : injectBits [0xFF#8, 0x00#8] [0#1] = some [0xFE#8, 0x00#8] ∧
    [0xFF#8, 0x00#8][0]? = some 0xFF#8 ∧ [0#1][0]? = some 0#1 ∧ [0#1].length ≤ 1 := by decide

theorem witness_LawsOfInjectAndExtract : 8 * [0xA5#8].length ≤ (List.replicate 8 0x10#8).length ∧
    injectBits (List.replicate 8 0x10#8) (packBytes [0xA5#8]) =
      some [0x11#8, 0x10#8, 0x11#8, 0x10#8, 0x10#8, 0x11#8, 0x10#8, 0x11#8] ∧ 8 ≤ (List.replicate 8 0x10#8).length := by
  decide

/-- The scripts: each at the start of a schedule, in an idle state that meets the invariant. -/
theorem witness_Scripts :
    Inv { lens 64#32 8#32 0#32 0#32 with schedule := scriptEmbed [] [0, 3] } ∧
    Inv { lens 64#32 8#32 0#32 0#32 with schedule := scriptRecover [65] [] } ∧
    Inv { lens 64#32 8#32 0#32 0#32 with schedule := scriptRecoverN 64#32 [] [] } ∧
    Inv { lens 64#32 8#32 0#32 0#32 with
      schedule := scriptCmd .pack ++ scriptWait [] ++ scriptCmd .unpack ++ scriptWait [0, 0] } ∧
    State.busy { lens 64#32 8#32 0#32 0#32 with schedule := scriptEmbed [] [0, 3] } = false ∧
    State.schedule { lens 64#32 8#32 0#32 0#32 with schedule := scriptEmbed [] [0, 3] } = scriptEmbed [] [0, 3] ++ [] ∧
    State.schedule { lens 64#32 8#32 0#32 0#32 with schedule := scriptRecoverN 64#32 [] [] } =
      scriptRecoverN 64#32 [] [] ++ [] :=
  ⟨inv_of_idle _ rfl rfl rfl rfl rfl, inv_of_idle _ rfl rfl rfl rfl rfl, inv_of_idle _ rfl rfl rfl rfl rfl,
    inv_of_idle _ rfl rfl rfl rfl rfl, by decide, rfl, rfl⟩

/-- The clauses of the script statements: PLEN = 8 with HLEN = 64 embeds, HLEN = 63 is over capacity, PLEN = 9 and
HLEN = 65 are out of range; each state meets the invariant. -/
theorem witness_ScriptClauses :
    ((lens 64#32 8#32 0#32 0#32).plen.toNat ≤ (lens 64#32 8#32 0#32 0#32).payCap ∧
      (lens 64#32 8#32 0#32 0#32).hlen.toNat ≤ (lens 64#32 8#32 0#32 0#32).hostCap ∧
      8 * (lens 64#32 8#32 0#32 0#32).plen.toNat ≤ (lens 64#32 8#32 0#32 0#32).hlen.toNat) ∧
    ((lens 63#32 8#32 0#32 0#32).plen.toNat ≤ (lens 63#32 8#32 0#32 0#32).payCap ∧
      (lens 63#32 8#32 0#32 0#32).hlen.toNat < 8 * (lens 63#32 8#32 0#32 0#32).plen.toNat) ∧
    (lens 65#32 9#32 0#32 0#32).payCap < (lens 65#32 9#32 0#32 0#32).plen.toNat ∧
    (lens 65#32 8#32 0#32 0#32).plen.toNat ≤ (lens 65#32 8#32 0#32 0#32).payCap ∧
    (lens 65#32 9#32 0#32 0#32).hostCap < (lens 65#32 9#32 0#32 0#32).hlen.toNat := by decide

theorem witness_ScriptClauses_inv : Inv { lens 63#32 8#32 0#32 0#32 with schedule := scriptEmbed [] [] } ∧
    Inv { lens 65#32 8#32 0#32 0#32 with schedule := scriptEmbed [] [] } ∧
    Inv { lens 65#32 9#32 0#32 0#32 with schedule := scriptRecover [] [] } ∧
    Inv { lens 65#32 9#32 0#32 0#32 with schedule := scriptRecoverN 0#32 [] [] } :=
  ⟨inv_of_idle _ rfl rfl rfl rfl rfl, inv_of_idle _ rfl rfl rfl rfl rfl, inv_of_idle _ rfl rfl rfl rfl rfl,
    inv_of_idle _ rfl rfl rfl rfl rfl⟩

/-- `wait`: an idle state, and a command in its last bit step. -/
theorem witness_Wait : (Inv State.reset ∧ State.reset.busy = false) ∧
    Inv (running 1#8 64#32 63#32 0#32 8#32 0#32) ∧ (running 1#8 64#32 63#32 0#32 8#32 0#32).busy = true :=
  ⟨⟨inv_of_idle _ rfl rfl rfl rfl rfl, by decide⟩, inv_running, by decide⟩

/-- The last clause of RECOVERN: a host buffer that carries an embedded byte. -/
theorem witness_RecoverN : (8#32).toNat = 8 * [0xA5#8].length ∧ 8 * [0xA5#8].length ≤ (lens 8#32 0#32 0#32 0#32).hlen.toNat ∧
    injectBits (List.replicate 8 0x10#8) (packBytes [0xA5#8]) = some (State.hostRange { lens 8#32 0#32 0#32 0#32 with
      host := [(0, 0x11#8), (1, 0x10#8), (2, 0x11#8), (3, 0x10#8), (4, 0x10#8), (5, 0x11#8), (6, 0x10#8), (7, 0x11#8)] }
        8) := by decide

end Sys2Proof.Machine
end

section
/-! Decoding inverted: a word is its two fields, so a command is decoded from its own word and from no other. -/

namespace Sys2Proof.Machine

/-- Format C covers the word (30_encoding.md R81): the two fields make it up. -/
theorem zeroField_append_opcodeField (w : Word) : zeroField w ++ opcodeField w = w := by
  calc zeroField w ++ opcodeField w
    _ = w.extractLsb' 0 32 := BitVec.extractLsb'_append_extractLsb'_eq_extractLsb' rfl
    _ = w := BitVec.extractLsb'_eq_self

theorem encode_eq_append (c : Instr) : encode c = 0#24 ++ opcodeOf c := by cases c <;> rfl

/-- Each row of the opcode table names its command by that command's opcode (30_encoding.md R83). -/
theorem eq_opcodeOf_of_opcodeInstr {op : BitVec 8} {c : Instr} (h : opcodeInstr op = some c) : op = opcodeOf c := by
  unfold opcodeInstr at h
  split_ifs at h <;> (cases h; assumption)

/-- What a word that decodes looks like in its two fields. -/
theorem fields_of_decode {w : Word} {c : Instr} (h : decode w = .ok c) :
    zeroField w = 0#24 ∧ opcodeField w = opcodeOf c := by
  unfold decode at h
  split at h
  next hz =>
    split at h
    next i hi =>
      cases h
      exact ⟨hz, eq_opcodeOf_of_opcodeInstr hi⟩
    next => cases h
  next => cases h

theorem eq_encode_of_decode {w : Word} {c : Instr} (h : decode w = .ok c) : w = encode c := by
  obtain ⟨hz, ho⟩ := fields_of_decode h
  rw [← zeroField_append_opcodeField w, hz, ho, encode_eq_append]

/-- The masks of 30_encoding.md R83 are all ones: a command has one word. -/
theorem decode_eq_ok_iff (w : Word) (c : Instr) : decode w = .ok c ↔ w = encode c := by
  constructor
  · exact eq_encode_of_decode
  · rintro rfl
    exact decode_encode c

/-- Settles O1: the word of each command, from the decoder inverted for every word. -/
theorem commandIsExactlyOneWord : Obligations.CommandIsExactlyOneWord := by
  intro w
  exact ⟨decode_eq_ok_iff w .pack, decode_eq_ok_iff w .unpack, decode_eq_ok_iff w .inject,
    decode_eq_ok_iff w .extract, decode_eq_ok_iff w .extractl⟩

end Sys2Proof.Machine
end

section
/-! The host's transactions: what each one answers while idle and while busy, and when it is refused. -/

namespace Sys2Proof.Machine

/-! ### Admission -/

theorem transact_of_idle {s : State} {x : Transaction} (hb : s.busy = false) (ha : admitted s x = true) :
    transact x s = admitOr (transactIdle s x) := by
  simp [transact, ha, hb]

theorem transact_of_busy {s : State} {x : Transaction} (hb : s.busy = true) (ha : admitted s x = true) :
    transact x s = .next (transactBusy s x) := by
  simp [transact, ha, hb]

/-- The block answers every admitted transaction, idle or busy. -/
theorem transact_next_of_admitted {s : State} {x : Transaction} (ha : admitted s x = true) :
    ∃ t, transact x s = .next t := by
  cases hb : s.busy
  case true => exact ⟨_, transact_of_busy hb ha⟩
  case false =>
    rcases transact_idle_cases hb ha with
      ⟨_, h⟩ | ⟨_, _, _, _, h⟩ | ⟨_, _, _, _, h⟩ | ⟨_, _, _, _, h⟩ | ⟨_, _, _, h⟩ | ⟨_, _, h⟩ <;> exact ⟨_, h⟩

theorem transact_refused_iff (x : Transaction) (s : State) :
    transact x s = .refused .notAdmitted ↔ admitted s x = false := by
  refine ⟨fun h => ?_, transact_not_admitted⟩
  by_contra ha
  obtain ⟨t, ht⟩ := transact_next_of_admitted (Bool.not_eq_false _ ▸ ha)
  rw [ht] at h
  cases h

/-- Settles O8: refusal is exactly failed admission, and admission is one bound for each kind of transaction. -/
theorem refusedExactlyWhenNotAdmitted : Obligations.RefusedExactlyWhenNotAdmitted := by
  intro s
  have register {x : Transaction} {n : Nat} (hx : admitted s x = decide (n ≤ 8)) :
      transact x s = .refused .notAdmitted ↔ 8 < n := by
    rw [transact_refused_iff, hx, decide_eq_false_iff_not, Nat.not_le]
  have cell {x : Transaction} {a cap : Nat} (hx : admitted s x = decide (a < cap)) :
      transact x s = .refused .notAdmitted ↔ cap ≤ a := by
    rw [transact_refused_iff, hx, decide_eq_false_iff_not, Nat.not_lt]
  exact ⟨fun _ => register rfl, fun _ _ => register rfl, fun _ => cell rfl, fun _ => cell rfl, fun _ => cell rfl,
    fun _ _ => cell rfl, fun _ _ => cell rfl, fun _ _ => cell rfl⟩

/-! ### Register accesses -/

/-- The register file in the order of its numbers (10_state.md R24). -/
def State.registers (s : State) : List Word :=
  [s.cmd, s.status, s.hlen, s.plen, s.blen, s.limit, s.idx, s.hcap, s.pcap]

theorem readReg_eq_registers_getElem? (s : State) : ∀ n : Nat, s.readReg n = s.registers[n]?
  | 0 | 1 | 2 | 3 | 4 | 5 | 6 | 7 | 8 => rfl
  | _ + 9 => rfl

theorem transact_regRead_idle {s : State} {n : Nat} {v : Word} (hb : s.busy = false) (hn : n ≤ 8)
    (hv : s.readReg n = some v) : transact (.regRead n) s = .next (answer (.word v) s) := by
  rw [transact_of_idle (x := .regRead n) hb (decide_eq_true hn), transactIdle, hv]
  rfl

theorem transact_regRead_busy {s : State} {n : Nat} (hb : s.busy = true) (hn : n ≤ 8) :
    transact (.regRead n) s = .next (if n = 1 then answer (.word s.status) s
      else answerFree (fun d => .word (Config.busyWord d)) s) :=
  transact_of_busy hb (decide_eq_true hn)

theorem transact_regWrite_idle {s : State} {n : Nat} (v : Word) (hb : s.busy = false) (hn : n ≤ 8) :
    transact (.regWrite n v) s = .next (if n = 0 then issue v s else s.writeReg n v) :=
  transact_of_idle hb (decide_eq_true hn)

/-- STATUS, IDX, HCAP and PCAP ignore the host's writes (40_sequencer.md R101). -/
theorem writeReg_readOnly (s : State) {n : Nat} (v : Word) (hn : n ∈ [1, 6, 7, 8]) : s.writeReg n v = s := by
  simp only [List.mem_cons, List.not_mem_nil, or_false] at hn
  rcases hn with rfl | rfl | rfl | rfl <;> rfl

/-- Settles O4: the register file while idle; STATUS, which is then 0x00000001, or a free value while busy. -/
theorem regReadReturnsRegisterOrUnspecified : Obligations.RegReadReturnsRegisterOrUnspecified := by
  intro s n hn
  refine ⟨fun hb => ?_, fun hb hl h1 => ?_, fun hb h1 => ?_⟩
  · obtain ⟨v, hv⟩ := readReg_some s hn
    exact ⟨v, (readReg_eq_registers_getElem? s n).symm.trans hv, transact_regRead_idle hb hn hv⟩
  · rw [transact_regRead_busy hb hn, if_pos h1, answer, legalStatus_busy hl hb]
  · rw [transact_regRead_busy hb hn, if_neg h1]
    exact ⟨_, rfl⟩

/-- Settles O5: the busy lock, then one case for each kind of register. -/
theorem regWriteStoresIgnoresOrIssues : Obligations.RegWriteStoresIgnoresOrIssues := by
  intro s v
  refine ⟨fun hb n hn => transact_of_busy hb (decide_eq_true hn), fun hb => ?_⟩
  have write {n : Nat} (hn : n ≤ 8) := transact_regWrite_idle v hb hn
  refine ⟨write (by decide), write (by decide), write (by decide), write (by decide), fun n hn => ?_, write (by decide)⟩
  have bounds : n ≠ 0 ∧ n ≤ 8 := by
    simp only [List.mem_cons, List.not_mem_nil, or_false] at hn
    omega
  rw [write bounds.2, if_neg bounds.1, writeReg_readOnly s v hn]

/-! ### Buffer accesses -/

/-- The reply that carries what a cell holds. -/
def State.cellReply (s : State) : Space → Nat → Reply
  | .host, a => .byte (s.hostAt a)
  | .pay, a => .byte (s.payAt a)
  | .bit, a => .bit (s.bitAt a)

theorem transact_bufRead_idle {s : State} {sp : Space} {a : Nat} (hb : s.busy = false)
    (ha : admitted s (.bufRead sp a) = true) : transact (.bufRead sp a) s = .next (answer (s.cellReply sp a) s) := by
  rw [transact_of_idle hb ha]
  cases sp <;> simp only [admitted, decide_eq_true_eq] at ha
  case host => simp [transactIdle, State.readHost, ha, admitOr, State.cellReply]
  case pay => simp [transactIdle, State.readPay, ha, admitOr, State.cellReply]
  case bit => simp [transactIdle, State.readBit, ha, admitOr, State.cellReply]

/-- Settles O6: the cell while idle, a free value of the cell's type while busy, for each space. -/
theorem bufReadReturnsCellOrUnspecified : Obligations.BufReadReturnsCellOrUnspecified := by
  intro s a
  refine ⟨fun ha => ?_, fun ha => ?_, fun ha => ?_⟩ <;> replace ha := decide_eq_true ha
  · exact ⟨fun hb => transact_bufRead_idle (sp := .host) hb ha, fun hb => ⟨_, transact_of_busy hb ha⟩⟩
  · exact ⟨fun hb => transact_bufRead_idle (sp := .pay) hb ha, fun hb => ⟨_, transact_of_busy hb ha⟩⟩
  · exact ⟨fun hb => transact_bufRead_idle (sp := .bit) hb ha, fun hb => ⟨_, transact_of_busy hb ha⟩⟩

theorem transact_hostWrite_idle {s : State} {a : Nat} (v : Byte) (hb : s.busy = false) (ha : a < s.hostCap) :
    transact (.hostWrite a v) s = .next { s with host := Memory.store s.host a v } := by
  rw [transact_of_idle (x := .hostWrite a v) hb (decide_eq_true ha), transactIdle, State.writeHost_eq_some.2 ⟨ha, rfl⟩, admitOr]

theorem transact_payWrite_idle {s : State} {a : Nat} (v : Byte) (hb : s.busy = false) (ha : a < s.payCap) :
    transact (.payWrite a v) s = .next { s with pay := Memory.store s.pay a v } := by
  rw [transact_of_idle (x := .payWrite a v) hb (decide_eq_true ha), transactIdle, State.writePay_eq_some.2 ⟨ha, rfl⟩, admitOr]

theorem transact_bitWrite_idle {s : State} {a : Nat} (v : Bit) (hb : s.busy = false) (ha : a < s.bitCap) :
    transact (.bitWrite a v) s = .next { s with bits := Memory.store s.bits a v } := by
  rw [transact_of_idle (x := .bitWrite a v) hb (decide_eq_true ha), transactIdle, State.writeBit_eq_some.2 ⟨ha, rfl⟩, admitOr]

/-- Settles O7: the busy lock, and a store read back at its own cell and at the others, for each space. -/
theorem bufWriteStoresOneCell : Obligations.BufWriteStoresOneCell := by
  intro s a
  refine ⟨fun ha v => ?_, fun ha v => ?_, fun ha v => ?_⟩
  · exact ⟨fun hb => transact_of_busy hb (decide_eq_true ha), fun hb => ⟨_, transact_hostWrite_idle v hb ha, rfl,
      (hostAt_store s a a v).trans (if_pos rfl), fun c hc => (hostAt_store s a c v).trans (if_neg hc)⟩⟩
  · exact ⟨fun hb => transact_of_busy hb (decide_eq_true ha), fun hb => ⟨_, transact_payWrite_idle v hb ha, rfl,
      (payAt_store s a a v).trans (if_pos rfl), fun c hc => (payAt_store s a c v).trans (if_neg hc)⟩⟩
  · exact ⟨fun hb => transact_of_busy hb (decide_eq_true ha), fun hb => ⟨_, transact_bitWrite_idle v hb ha, rfl,
      (bitAt_store s a a v).trans (if_pos rfl), fun c hc => (bitAt_store s a c v).trans (if_neg hc)⟩⟩

end Sys2Proof.Machine
end

section
/-! Command issue by word, and the finish step by command. -/

namespace Sys2Proof.Machine

/-! ### Command issue -/

/-- Only INJECT has a capacity check: the issue of any other command is decided by its range alone. -/
theorem issue_encode_of_ne_inject {c : Instr} (hc : c ≠ .inject) (s : State) :
    issue (encode c) s = if inRangeOf c s = true then startedState c s else failedState (encode c) .bounds s := by
  have ho : overCapacityOf c s = false := by
    cases c
    case inject => exact absurd rfl hc
    all_goals rfl
  cases hr : inRangeOf c s <;> simp [issue_encode, hr, ho]

theorem issue_encode_pack (s : State) : issue (encode .pack) s =
    if s.plen.toNat ≤ s.payCap then startedState .pack s else failedState (encode .pack) .bounds s :=
  (issue_encode_of_ne_inject (by decide) s).trans (if_congr decide_eq_true_iff rfl rfl)

theorem issue_encode_unpack (s : State) : issue (encode .unpack) s =
    if s.blen.toNat ≤ s.bitCap then startedState .unpack s else failedState (encode .unpack) .bounds s :=
  (issue_encode_of_ne_inject (by decide) s).trans (if_congr decide_eq_true_iff rfl rfl)

/-- The issue of INJECT: its range decides first, then its capacity check (60_exceptions.md R205). -/
theorem issue_encode_inject (s : State) : issue (encode .inject) s =
    if s.blen.toNat ≤ s.bitCap ∧ s.hlen.toNat ≤ s.hostCap then
      if s.hlen.toNat < s.blen.toNat then failedState (encode .inject) .capacity s else startedState .inject s
    else failedState (encode .inject) .bounds s := by
  rw [issue_encode]
  simp only [inRangeOf, inRangeInject, overCapacityOf, overCapacity, ← Bool.decide_and, decide_eq_false_iff_not,
    decide_eq_true_eq, ite_not]

theorem issue_encode_extract (s : State) : issue (encode .extract) s =
    if s.hlen.toNat ≤ s.hostCap then startedState .extract s else failedState (encode .extract) .bounds s :=
  (issue_encode_of_ne_inject (by decide) s).trans (if_congr decide_eq_true_iff rfl rfl)

theorem issue_encode_extractl (s : State) : issue (encode .extractl) s =
    if s.hlen.toNat ≤ s.hostCap then startedState .extractl s else failedState (encode .extractl) .bounds s :=
  (issue_encode_of_ne_inject (by decide) s).trans (if_congr decide_eq_true_iff rfl rfl)

/-- Settles O12: the decoder's cases, that is, the word of each command and the words of none. -/
theorem commandIssueDecidesByWord : Obligations.CommandIssueDecidesByWord := by
  intro s w hb
  refine (transact_regWrite_idle w hb (Nat.zero_le 8)).trans (congrArg _ ?_)
  change issue w s = _
  cases hd : decode w with
  | error r =>
    have hne (c : Instr) : w ≠ encode c := by
      rintro rfl
      rw [decode_encode] at hd
      cases hd
    rw [issue_illegal s hd]
    exact ((if_neg (hne .pack)).trans <| (if_neg (hne .unpack)).trans <| (if_neg (hne .inject)).trans <|
      (if_neg (hne .extract)).trans <| if_neg (hne .extractl)).symm
  | ok c =>
    obtain rfl := eq_encode_of_decode hd
    cases c with
    | pack => exact issue_encode_pack s
    | unpack => exact issue_encode_unpack s
    | inject => exact issue_encode_inject s
    | extract => exact issue_encode_extract s
    | extractl => exact issue_encode_extractl s

/-! ### The finish step -/

/-- The finish step of a running command: its length register, and STATUS 0x00000002. -/
theorem sequencerTurn_finish_of_legal {c : Instr} {s : State} (hb : s.busy = true) (hl : legalStatus s.status)
    (hi : s.idx = s.cnt) (ho : s.op = opcodeOf c) :
    sequencerTurn s = .next { finishOf c s with status := 0x2#32 } := by
  have hs : (finishOf c s).status = 0x1#32 := by
    rw [← legalStatus_busy hl hb]
    cases c <;> rfl
  rw [sequencerTurn_finish hb (ho ▸ opcodeInstr_opcodeOf c) hi, finishStep, endCommand_busy _ hs]

/-- Settles O19: the finish step of each command, and no enabled step while STATUS is 0x00000002. -/
theorem finishStepWritesLengthAndStatus : Obligations.FinishStepWritesLengthAndStatus := by
  refine ⟨fun s hb hl hi => ?_, fun s hs => sequencerTurn_idle (busy_of_status hs)⟩
  have finish {c : Instr} := sequencerTurn_finish_of_legal (c := c) hb hl hi
  refine ⟨?_, fun ho => ?_, fun ho => finish (c := .inject) ho⟩
  · rintro (ho | ho | ho)
    · exact finish (c := .pack) ho
    · exact finish (c := .extract) ho
    · exact finish (c := .extractl) ho
  · rw [BitVec.udiv_def]
    exact finish (c := .unpack) ho

end Sys2Proof.Machine
end

section
/-! PACK and UNPACK: the two functions on sequences, the bit steps, and the whole commands. -/

namespace Sys2Proof.Machine

/-! ### The functions on sequences -/

/-- A byte's place among the packed bits: each byte stands for eight of them, so `j` counts bytes and `k` bits. -/
theorem packBytes_getElem? (ps : List Byte) (j : Nat) {k : Nat} (hk : k < 8) :
    (packBytes ps)[8 * j + k]? = ps[j]?.map fun p => msbbit p k := by
  induction ps generalizing j with
  | nil => rfl
  | cons p ps ih =>
    cases j with
    | zero =>
      rw [packBytes, List.getElem?_append_left (by rw [packByte_length]; omega)]
      interval_cases k <;> rfl
    | succ j =>
      rw [packBytes, List.getElem?_append_right (by rw [packByte_length]; omega), packByte_length,
        show 8 * (j + 1) + k - 8 = 8 * j + k by omega, ih, List.getElem?_cons_succ]

/-- Settles O46: the length and the concatenation by induction on the bytes, a bit by its byte and its place in it. -/
theorem packFunctionIsMsbFirst : Obligations.PackFunctionIsMsbFirst :=
  ⟨packBytes_length, fun ps j _ hk => packBytes_getElem? ps j hk, rfl, packBytes_append, by decide⟩

/-- Every sequence is listed by its indices. -/
theorem exists_eq_map_range {α : Type} [Inhabited α] (l : List α) : ∃ f : Nat → α, l = (List.range l.length).map f := by
  refine ⟨fun i => l[i]?.getD default, List.ext_getElem (by simp) fun i hi _ => ?_⟩
  simp [hi]

/-- Settles O47: a sequence is listed by its indices, and byte `j` of its unpacking is made of bits `8j` to `8j + 7`. -/
theorem unpackFunctionIsMsbFirst : Obligations.UnpackFunctionIsMsbFirst := by
  refine ⟨by decide, fun bs => ?_⟩
  obtain ⟨f, hf⟩ := exists_eq_map_range bs
  have hu := unpackBits_map_range f bs.length
  rw [← hf] at hu
  refine ⟨by simp [hu], fun j hj b hb => ?_⟩
  have hbit (k : Nat) (hk : k < 8) : f (8 * j + k) = b k := by
    have hi : 8 * j + k < bs.length := by omega
    have h := hb k hk
    rw [hf] at h
    simpa [hi] using h
  refine ⟨_, by rw [hu, List.getElem?_map, List.getElem?_range hj]; rfl, ?_⟩
  simp only [byteOfBits_toNat, ← hbit, Nat.reduceLT, Nat.add_zero]

/-! ### The bit steps -/

/-- Settles O15: the body of PACK stores one bit, read back at its own cell and at the others. -/
theorem packBitStepMovesOneBit : Obligations.PackBitStepMovesOneBit := by
  intro s hb ho hi hc
  have hop : opcodeInstr s.op = some .pack := ho ▸ opcodeInstr_opcodeOf .pack
  have hbody := (bodyPack_eq s.idx.toNat s).trans (if_pos hc)
  exact ⟨_, sequencerTurn_bit hb hop hi hbody, rfl, (bitAt_store s _ _ _).trans (if_pos rfl),
    fun a ha => (bitAt_store s _ a _).trans (if_neg ha)⟩

/-- The byte UNPACK writes, by the weights of its eight bits (41_pack_unpack.md R121). -/
theorem unpackedByte_toNat (s : State) (j : Nat) : (unpackedByte s j).toNat =
    (s.bitAt (8 * j)).toNat * 128 + (s.bitAt (8 * j + 1)).toNat * 64 + (s.bitAt (8 * j + 2)).toNat * 32 +
      (s.bitAt (8 * j + 3)).toNat * 16 + (s.bitAt (8 * j + 4)).toNat * 8 + (s.bitAt (8 * j + 5)).toNat * 4 +
      (s.bitAt (8 * j + 6)).toNat * 2 + (s.bitAt (8 * j + 7)).toNat :=
  byteOfBits_toNat _ _ _ _ _ _ _ _

theorem foldl_bodyUnpack_eight (j : Nat) (s : State) :
    (List.range 8).foldl (fun o k => o.bind (bodyUnpack (8 * j + k))) (some s) = unpackByte j s :=
  bodyUnpack_eight j s

/-- Settles O16: the body of UNPACK replaces one bit of one byte, and the eight bodies of a byte are one store. -/
theorem unpackBitStepMovesOneBit : Obligations.UnpackBitStepMovesOneBit := by
  refine ⟨fun s hb ho hi hc => ?_, fun s j hj => ?_⟩
  · have hop : opcodeInstr s.op = some .unpack := ho ▸ opcodeInstr_opcodeOf .unpack
    have hbody := (bodyUnpack_eq s.idx.toNat s).trans (if_pos hc)
    exact ⟨_, sequencerTurn_bit hb hop hi hbody, rfl, (payAt_store s _ _ _).trans (if_pos rfl),
      fun a ha => (payAt_store s _ a _).trans (if_neg ha)⟩
  · have hbyte := (unpackByte_eq j s).trans (if_pos hj)
    refine ⟨_, (foldl_bodyUnpack_eight j s).trans hbyte, rfl, fun a ha => (payAt_store s j a _).trans (if_neg ha), ?_⟩
    rw [payAt_store, if_pos rfl, unpackedByte_toNat]

/-! ### The whole commands -/

/-- Settles O23: the stores of PACK in closed form against `packBytes` by index, and the error entry out of range. -/
theorem packPacksPayload : Obligations.PackPacksPayload := by
  intro s hcap hb
  refine ⟨fun hr => ?_, fun hr => exec_outOfRange hb (decide_eq_false (Nat.not_le.2 hr))⟩
  have hfit : 8 * s.plen.toNat < 2 ^ 32 := by
    obtain ⟨-, hpay, -⟩ := capacitiesOk_bounds hcap
    omega
  have hcell := bitAt_storeSeq s (fun i => msbbit (s.payAt (i / 8)) (i % 8)) (8 * s.plen.toNat)
  refine ⟨_, exec_pack_starts hb hr, rfl, toNat_count hfit, ?_, fun i hi => (hcell i).trans (if_pos hi),
    fun a ha => (hcell a).trans (if_neg (Nat.not_lt.2 ha))⟩
  rw [State.payRange, packBytes_map_range]
  exact List.map_congr_left fun i hi => (hcell i).trans (if_pos (List.mem_range.1 hi))

/-- Settles O24: the stores of UNPACK in closed form against `unpackBits` by index, and the error entry out of range. -/
theorem unpackUnpacksBits : Obligations.UnpackUnpacksBits := by
  intro s _ hb
  refine ⟨fun hr => ?_, fun hr => exec_outOfRange hb (decide_eq_false (Nat.not_le.2 hr))⟩
  have hfit : s.blen.toNat / 8 < 2 ^ 32 := (Nat.div_le_self _ _).trans_lt s.blen.isLt
  have hcell := payAt_storeSeq s (unpackedByte s) (s.blen.toNat / 8)
  refine ⟨_, exec_unpack_starts hb hr, rfl, toNat_count hfit, ?_, fun j hj => ?_,
    fun a ha => (hcell a).trans (if_neg (Nat.not_lt.2 ha))⟩
  · rw [State.bitRange, unpackBits_map_range]
    exact List.map_congr_left fun j hj => (hcell j).trans (if_pos (List.mem_range.1 hj))
  · rw [← unpackedByte_toNat]
    exact congrArg BitVec.toNat ((hcell j).trans (if_pos hj))

end Sys2Proof.Machine
end

section
/-! INJECT: the function on sequences, the bit step, and the whole command with its strict capacity check. -/

namespace Sys2Proof.Machine

/-! ### The function on sequences -/

/-- Overwriting by index: a byte with a bit of its own takes it, a byte without one stays (42_inject.md R140). -/
theorem overwriteLsbs_getElem? (hs : List Byte) (bs : List Bit) (i : Nat) :
    (overwriteLsbs hs bs)[i]? = hs[i]?.map fun h => bs[i]?.elim h (setlsb h) := by
  induction hs generalizing bs i with
  | nil => rfl
  | cons h hs ih =>
    cases bs with
    | nil => simp
    | cons b bs =>
      cases i with
      | zero => rfl
      | succ i => exact ih bs i

theorem injectBits_eq_none_iff {hs : List Byte} {bs : List Bit} : injectBits hs bs = none ↔ hs.length < bs.length := by
  simp [injectBits]

theorem eq_overwriteLsbs_of_injectBits {hs gs : List Byte} {bs : List Bit} (h : injectBits hs bs = some gs) :
    gs = overwriteLsbs hs bs := by
  unfold injectBits at h
  split at h
  · exact (Option.some.inj h).symm
  · cases h

/-- `setlsb` moves the value of a byte by at most 1 (42_inject.md R145 (e)). -/
theorem setlsb_toNat_near : ∀ (h : Byte) (b : Bit),
    (setlsb h b).toNat ≤ h.toNat + 1 ∧ h.toNat ≤ (setlsb h b).toNat + 1 := by decide +kernel

/-- Settles O49: a byte of the result is the carrier's byte or its `setlsb`, which keeps bits 7 to 1. -/
theorem injectFunctionPreservesCarrier : Obligations.InjectFunctionPreservesCarrier := by
  refine fun hs bs => ⟨injectBits_eq_none_iff, by simp [injectBits], fun gs hgs => ?_⟩
  obtain rfl := eq_overwriteLsbs_of_injectBits hgs
  refine ⟨overwriteLsbs_length hs bs, fun i h b hh hb => ⟨setlsb h b, ?_, rfl, lsb_setlsb h b⟩, fun i hi => ?_,
    fun i h g hh hg => ?_⟩
  · simp [overwriteLsbs_getElem?, hh, hb]
  · simp [overwriteLsbs_getElem?, List.getElem?_eq_none hi]
  · have hbyte : bs[i]?.elim h (setlsb h) = g := by simpa [overwriteLsbs_getElem?, hh] using hg
    cases hb : bs[i]? with
    | none =>
      obtain rfl : h = g := by rwa [hb] at hbyte
      exact ⟨rfl, Nat.le_succ _, Nat.le_succ _⟩
    | some b =>
      obtain rfl : setlsb h b = g := by rwa [hb] at hbyte
      exact ⟨setlsb_high h b, setlsb_toNat_near h b⟩

/-! ### The bit step -/

/-- Settles O17: the body of INJECT stores one byte, read back at its own cell and at the others. -/
theorem injectBitStepMovesOneBit : Obligations.InjectBitStepMovesOneBit := by
  intro s hb ho hi hbit hhost
  have hop : opcodeInstr s.op = some .inject := ho ▸ opcodeInstr_opcodeOf .inject
  have hbody := (bodyInject_eq s.idx.toNat s).trans (if_pos ⟨hhost, hbit⟩)
  exact ⟨_, sequencerTurn_bit hb hop hi hbody, rfl, (hostAt_store s _ _ _).trans (if_pos rfl),
    fun a ha => (hostAt_store s _ a _).trans (if_neg ha)⟩

/-! ### The whole command -/

/-- `inrange(3)` (40_sequencer.md R107). -/
theorem inRangeOf_inject_iff (s : State) :
    inRangeOf .inject s = true ↔ s.blen.toNat ≤ s.bitCap ∧ s.hlen.toNat ≤ s.hostCap := by
  simp [inRangeOf, inRangeInject]

/-- Settles O25: the stores of INJECT in closed form against `injectBits` by index, and an error entry for each check. -/
theorem injectOverwritesLsbs : Obligations.InjectOverwritesLsbs := by
  refine fun s hb => ⟨fun hcap hhost hbit => ?_, fun hr => ?_, fun hbit hhost hcap => ?_⟩
  · have hcell := hostAt_storeSeq s (fun i => setlsb (s.hostAt i) (s.bitAt i)) s.blen.toNat
    refine ⟨_, exec_inject_starts hb hbit hhost hcap, rfl, ?_, fun i hi => (hcell i).trans (if_pos hi),
      fun a ha => (hcell a).trans (if_neg (Nat.not_lt.2 ha))⟩
    rw [State.hostRange, State.bitRange, injectBits_map_range _ _ _ _ hcap]
    exact congrArg some (List.map_congr_left fun i _ => (hcell i).symm)
  · have hr' : ¬(s.blen.toNat ≤ s.bitCap ∧ s.hlen.toNat ≤ s.hostCap) := by omega
    exact exec_outOfRange hb (Bool.eq_false_iff.2 (mt (inRangeOf_inject_iff s).1 hr'))
  · exact exec_overCapacity hb ((inRangeOf_inject_iff s).2 ⟨hbit, hhost⟩) (decide_eq_true hcap)

/-- Settles O31: the two in-range clauses of R141, the first for `BLEN <= HLEN` and the second for every BLEN above. -/
theorem capacityCheckIsStrict : Obligations.CapacityCheckIsStrict := by
  intro s hb hhost hbit
  obtain ⟨hstarts, -, hover⟩ := injectOverwritesLsbs s hb
  refine ⟨fun hcap => ?_, fun hcap => ⟨_, hover hbit hhost hcap, rfl, fun _ => rfl⟩⟩
  obtain ⟨t, hexec, ht, -, hbelow, habove⟩ := hstarts hcap hhost hbit
  refine ⟨t, hexec, congrArg State.status ht, fun i hi => ?_, fun a ha => habove a (hcap.trans ha)⟩
  rw [hbelow i hi]
  exact lsb_setlsb (s.hostAt i) (s.bitAt i)

end Sys2Proof.Machine
end

section
/-! EXTRACT and EXTRACTL: the bit step, the whole commands, their repetition, and the laws that link the functions
inject and extract. -/

namespace Sys2Proof.Machine

/-! ### The bit step -/

/-- Settles O18: the two commands share one body, which stores one bit, read back at its own cell and at the others. -/
theorem extractBitStepMovesOneBit : Obligations.ExtractBitStepMovesOneBit := by
  intro s hb ho hi hbit hhost
  obtain ⟨c, hop, hc⟩ : ∃ c, opcodeInstr s.op = some c ∧ bodyOf c s.idx.toNat s = extractOne s.idx.toNat s := by
    rcases ho with ho | ho
    · exact ⟨.extract, ho ▸ opcodeInstr_opcodeOf .extract, rfl⟩
    · exact ⟨.extractl, ho ▸ opcodeInstr_opcodeOf .extractl, rfl⟩
  have hbody := (hc.trans (extractOne_eq _ s)).trans (if_pos ⟨hhost, hbit⟩)
  exact ⟨_, sequencerTurn_bit hb hop hi hbody, rfl, (bitAt_store s _ _ _).trans (if_pos rfl),
    fun a ha => (bitAt_store s _ a _).trans (if_neg ha)⟩

/-! ### The whole commands -/

/-- The cells of BIT after the stores of an extraction of `n` bits, against the function on sequences
(43_extract.md R160). -/
theorem bits_of_extraction {s t : State} {n m : Nat} (hn : n ≤ m) (he : t.epoch = s.epoch)
    (hbits : t.bits = storeSeq s.bits (fun i => lsb (s.hostAt i)) n) :
    extractBits (s.hostRange m) n = some (t.bitRange n) ∧
      (∀ i < n, t.bitAt i = lsb (s.hostAt i)) ∧ ∀ a, n ≤ a → t.bitAt a = s.bitAt a := by
  have hcell (a : Nat) : t.bitAt a = if a < n then lsb (s.hostAt a) else s.bitAt a := by
    rw [← bitAt_storeSeq s fun i => lsb (s.hostAt i)]
    simp only [State.bitAt, he, hbits]
  refine ⟨?_, fun i hi => (hcell i).trans (if_pos hi), fun a ha => (hcell a).trans (if_neg (Nat.not_lt.2 ha))⟩
  rw [State.hostRange, extractBits_map_range _ _ _ hn]
  exact congrArg some (List.map_congr_left fun i hi => ((hcell i).trans (if_pos (List.mem_range.1 hi))).symm)

/-- Settles O26: the stores of EXTRACT in closed form, all `HLEN` of them, and the error entry out of range. -/
theorem extractReadsEveryLsb : Obligations.ExtractReadsEveryLsb := by
  intro s hcap hb
  exact ⟨fun hr => ⟨_, exec_extract_starts hcap hb hr, rfl, bits_of_extraction (Nat.le_refl _) rfl rfl⟩,
    fun hr => exec_outOfRange hb (decide_eq_false (Nat.not_le.2 hr))⟩

/-- Settles O27: the stores of EXTRACTL in closed form, at most `LIMIT` of the `HLEN` ones, and the error entry out of
range. -/
theorem extractlReadsABoundedPrefix : Obligations.ExtractlReadsABoundedPrefix := by
  intro s hcap hb
  refine ⟨fun hr => ?_, fun hr => exec_outOfRange hb (decide_eq_false (Nat.not_le.2 hr))⟩
  have hle : min s.hlen.toNat s.limit.toNat ≤ s.hlen.toNat := Nat.min_le_left _ _
  exact ⟨_, _, rfl, exec_extractl_starts hcap hb hr, rfl, toNat_count (hle.trans_lt s.hlen.isLt),
    bits_of_extraction hle rfl rfl⟩

/-! ### Repetition -/

/-- The big-step effects of the two commands are one, each with its own count of bits. -/
theorem effectOf_extraction {c : Instr} (hc : c = .extract ∨ c = .extractl) (s : State) :
    effectOf c s = if countOf c s ≤ s.hostCap ∧ countOf c s ≤ s.bitCap then some { s with
      bits := storeSeq s.bits (fun i => lsb (s.hostAt i)) (countOf c s)
      blen := BitVec.ofNat 32 (countOf c s) } else none := by
  rcases hc with rfl | rfl
  · simpa [effectOf, countOf, countExtract] using effectExtract_eq s
  · exact effectExtractl_eq s

theorem inRangeOf_failedState (c : Instr) (w : Word) (e : ErrorCause) (s : State) :
    inRangeOf c (failedState w e s) = inRangeOf c s := by cases c <;> rfl

theorem countOf_startedState (c d : Instr) (s : State) : countOf c (startedState d s) = countOf c s := by
  cases c <;> rfl

/-- Everything an extraction that answers a next state can do, whatever the capacities are: its stores if it starts;
else no store, and it would not start from the next state either. HOST and the operands stay. -/
theorem exec_extraction_cases {c : Instr} {s t : State} (hc : c = .extract ∨ c = .extractl) (h : exec c s = .next t) :
    t = { s with
      bits := t.bits, blen := t.blen, cmd := t.cmd, status := t.status, idx := t.idx, op := t.op, cnt := t.cnt } ∧
    ((starts c s ∧ t.bits = storeSeq s.bits (fun i => lsb (s.hostAt i)) (countOf c s)) ∨
      (¬starts c t ∧ t.bits = s.bits)) := by
  have ho : overCapacityOf c s = false := by rcases hc with rfl | rfl <;> rfl
  cases hb : s.busy
  case true =>
    cases (exec_busy c hb).symm.trans h
    exact ⟨rfl, .inr ⟨fun hs => by simp [starts, hb] at hs, rfl⟩⟩
  case false =>
    cases hr : inRangeOf c s
    case false =>
      cases (exec_outOfRange hb hr).symm.trans h
      exact ⟨rfl, .inr ⟨fun hs => by simp [starts, inRangeOf_failedState, hr] at hs, rfl⟩⟩
    case true =>
      have hs : starts c s := ⟨hb, hr, ho⟩
      rw [exec_starts hs, effectOf_extraction hc, countOf_startedState] at h
      split_ifs at h
      cases h
      exact ⟨rfl, .inl ⟨hs, rfl⟩⟩

/-- Settles O32: the second extraction, if it starts, stores the same bits in the same cells as the first. -/
theorem extractionKeepsHostAndRepeats : Obligations.ExtractionKeepsHostAndRepeats := by
  intro c s t hc hst
  obtain ⟨ht, hfirst⟩ := exec_extraction_cases hc hst
  have hhost (a : Nat) : t.hostAt a = s.hostAt a := by rw [ht]; rfl
  have hcount : countOf c t = countOf c s := by rw [ht]; rcases hc with rfl | rfl <;> rfl
  refine ⟨hhost, fun u htu a => ?_⟩
  obtain ⟨hu, hsecond⟩ := exec_extraction_cases hc htu
  have hbits : u.bits = t.bits := by
    rcases hsecond with ⟨hstarts, hsecond⟩ | ⟨-, hsecond⟩
    · rcases hfirst with ⟨-, hfirst⟩ | ⟨hnot, -⟩
      · rw [hsecond, hcount, storeSeq_congr _ fun i _ => congrArg lsb (hhost i), hfirst, storeSeq_storeSeq]
      · exact absurd hstarts hnot
    · exact hsecond
  rw [hu, hbits]
  exact ⟨hhost a, rfl⟩

/-! ### The laws of the functions -/

/-- Overwriting then reading every LSB: the bits written, then the LSBs of the bytes that got none. -/
theorem map_lsb_overwriteLsbs {hs : List Byte} {bs : List Bit} (h : bs.length ≤ hs.length) :
    (overwriteLsbs hs bs).map lsb = bs ++ (hs.map lsb).drop bs.length := by
  induction hs generalizing bs with
  | nil =>
    obtain rfl : bs = [] := List.length_eq_zero_iff.1 (Nat.le_zero.1 h)
    rfl
  | cons g hs ih =>
    cases bs with
    | nil => simp
    | cons b bs => simp [overwriteLsbs, ih (Nat.le_of_succ_le_succ h)]

/-- Writing back the LSBs just read changes nothing. -/
theorem overwriteLsbs_map_lsb_take (hs : List Byte) (n : Nat) : overwriteLsbs hs ((hs.take n).map lsb) = hs := by
  induction hs generalizing n with
  | nil => rfl
  | cons h hs ih =>
    cases n with
    | zero => rfl
    | succ n => simpa [overwriteLsbs] using ih n

theorem extractBits_of_le {hs : List Byte} {n : Nat} (h : n ≤ hs.length) :
    extractBits hs n = some ((hs.map lsb).take n) := by
  rw [extractBits, if_pos h, List.map_take]

/-- The full extraction reads every LSB. -/
theorem extractBits_length (hs : List Byte) : extractBits hs hs.length = some (hs.map lsb) := by
  rw [extractBits_of_le (Nat.le_refl _), ← List.length_map (f := lsb), List.take_length]

theorem unpackBits_packByte_append (p : Byte) (bs : List Bit) : unpackBits (packByte p ++ bs) = p :: unpackBits bs :=
  congrArg (· :: unpackBits bs) (byteOfBits_msbbit p)

/-- Packed bytes in front of any bits unpack to themselves (41_pack_unpack.md R125 (a), (e)). -/
theorem unpackBits_packBytes_append (ps : List Byte) (bs : List Bit) :
    unpackBits (packBytes ps ++ bs) = ps ++ unpackBits bs := by
  induction ps with
  | nil => rfl
  | cons p ps ih => rw [packBytes, List.append_assoc, unpackBits_packByte_append, ih, List.cons_append]

theorem unpackBits_length (bs : List Bit) : (unpackBits bs).length = bs.length / 8 := (unpackFunctionIsMsbFirst.2 bs).1

/-- What an injection leaves to be read back (43_extract.md R169 (a), (b)): the bits injected, and in full those
followed by the host's own LSBs. -/
theorem extractBits_of_injectBits {hs gs : List Byte} {bs : List Bit} (h : injectBits hs bs = some gs) :
    extractBits gs bs.length = some bs ∧
      extractBits gs gs.length = some (bs ++ (hs.map lsb).drop bs.length) := by
  have hle : bs.length ≤ hs.length := Nat.not_lt.1 fun hlt => by simp [injectBits_eq_none_iff.2 hlt] at h
  obtain rfl := eq_overwriteLsbs_of_injectBits h
  constructor
  · rw [extractBits_of_le (by simpa using hle), map_lsb_overwriteLsbs hle, List.take_left]
  · rw [extractBits_length, map_lsb_overwriteLsbs hle]

/-- Settles O50: one reading of an injected carrier, then unpacking at its byte boundary. -/
theorem lawsOfInjectAndExtract : Obligations.LawsOfInjectAndExtract := by
  refine ⟨fun hs gs bs hg => ?_, fun hs gs ps _ hg => ?_, fun hs n hn => ?_⟩
  · obtain ⟨hbounded, hfull⟩ := extractBits_of_injectBits hg
    exact ⟨hbounded, _, extractBits_length hs, hfull⟩
  · obtain ⟨hbounded, hfull⟩ := extractBits_of_injectBits hg
    rw [packBytes_length] at hbounded hfull
    refine ⟨?_, unpackBits ((hs.map lsb).drop (8 * ps.length)), ?_, ?_, ?_⟩
    · rw [hbounded]
      simpa [unpackBits] using unpackBits_packBytes_append ps []
    · simp [unpackBits_length]
    · rw [hfull, Option.map_some, unpackBits_packBytes_append]
    · rw [extractBits_length, Option.map_some]
  · rw [extractBits, if_pos hn, Option.bind_some, injectBits, if_pos (by simp), overwriteLsbs_map_lsb_take]

end Sys2Proof.Machine
end

section
/-! Errors: which words have no command, what a failing issue leaves, which error is reported, and how long the
indication stays. -/

namespace Sys2Proof.Machine

/-! ### A failing issue -/

@[simp] theorem failedState_cause (w : Word) (e : ErrorCause) (s : State) : (failedState w e s).cause = e.code := by
  change statusCause (errorStatus e) = e.code
  cases e <;> decide

@[simp] theorem startedState_cause (c : Instr) (s : State) : (startedState c s).cause = 0#4 := by
  change statusCause 0x1#32 = 0#4
  decide

theorem startedState_err (c : Instr) (s : State) : (startedState c s).err = false := by
  change statusErr 0x1#32 = false
  decide

/-- An issue that sets ERR is an error entry: a command that starts has ERR = 0. -/
theorem issue_of_err {w : Word} {s : State} (h : (issue w s).err = true) : ∃ e, issue w s = failedState w e s := by
  rcases issue_cases w s with hfailed | ⟨c, _, _, _, hstarted⟩
  · exact hfailed
  · rw [hstarted] at h
    exact absurd ((startedState_err c s).symm.trans h) Bool.false_ne_true

/-- A whole command that its issue leaves idle is no more than that issue (40_sequencer.md R111). -/
theorem commandTurn_of_issue_idle {w : Word} {s : State} (hb : s.busy = false) (hi : (issue w s).busy = false) :
    commandTurn w s = .next (issue w s) := by
  cases hd : decode w with
  | error r => simp [commandTurn, hd, hb]
  | ok c =>
    obtain rfl := eq_encode_of_decode hd
    have hc : checksOf c (latchCommand (encode c) s) = issue (encode c) s := by rw [checks_latch, issue_encode]
    simp [commandTurn, hd, exec_eq, runCommand, hb, hc, hi]

/-- A failing command, taken whole, is its error entry. -/
theorem commandTurn_of_failed {w : Word} {e : ErrorCause} {s : State} (hb : s.busy = false)
    (hi : issue w s = failedState w e s) : commandTurn w s = .next (failedState w e s) :=
  hi ▸ commandTurn_of_issue_idle hb (hi ▸ failedState_idle w e s)

/-- Settles O36: an issue that sets ERR is an error entry, which writes CMD, IDX and STATUS alone. -/
theorem failingCommandChangesNothingElse : Obligations.FailingCommandChangesNothingElse := by
  intro w s hb herr
  obtain ⟨e, hi⟩ := issue_of_err herr
  have hstatus : errorStatus e ∈ [0x16#32, 0x26#32, 0x36#32] := by cases e <;> decide
  rw [hi]
  exact ⟨rfl, hstatus, commandTurn_of_failed hb hi⟩

/-- Settles O38: error entry in a command issue, for each of the three causes. -/
theorem errorEntryWritesDoneErrCause : Obligations.ErrorEntryWritesDoneErrCause := by
  intro e w s
  rw [raise_latch]
  cases e <;> rfl

/-! ### Illegal words -/

/-- The opcodes of the five commands are 1 to 5 (30_encoding.md R83). -/
theorem opcodeOf_range (c : Instr) : opcodeOf c ≠ 0x00#8 ∧ ¬ 0x06#8 ≤ opcodeOf c := by
  cases c <;> decide

/-- A nonzero bit in 31:8, or an opcode outside 1 to 5, leaves a word without a command (30_encoding.md R84). -/
theorem decode_error_of_fields {w : Word} (h : zeroField w ≠ 0#24 ∨ opcodeField w = 0x00#8 ∨ 0x06#8 ≤ opcodeField w) :
    ∃ r, decode w = .error r := by
  cases hd : decode w with
  | error r => exact ⟨r, rfl⟩
  | ok c =>
    obtain ⟨hzero, hop⟩ := fields_of_decode hd
    obtain ⟨hpos, hle⟩ := opcodeOf_range c
    rw [hop] at h
    rcases h with h | h | h
    · exact absurd hzero h
    · exact absurd h hpos
    · exact absurd h hle

/-- Settles O13: such a word does not decode, and its issue is the error entry of IllegalCommand. -/
theorem illegalWordRaisesIllegalCommand : Obligations.IllegalWordRaisesIllegalCommand := by
  intro s w hb hw
  obtain ⟨r, hd⟩ := decode_error_of_fields hw
  have hi := issue_illegal s hd
  exact ⟨(transact_regWrite_idle w hb (Nat.zero_le 8)).trans (congrArg _ hi), commandTurn_of_failed hb hi⟩

/-! ### The first error that applies -/

/-- CAUSE after the issue of a legal command: its range decides first, then its capacity check. -/
theorem issue_cause_of_decode {w : Word} {c : Instr} (s : State) (h : decode w = .ok c) :
    (issue w s).cause = if inRangeOf c s = false then 3#4 else if overCapacityOf c s = true then 1#4 else 0#4 := by
  obtain rfl := eq_encode_of_decode h
  rw [issue_encode]
  split_ifs <;> simp [ErrorCause.code]

theorem step_reset {s : State} {rest : List Turn} (hq : s.schedule = .reset :: rest) :
    step s = .next (resetBlock { s with schedule := rest }) :=
  step_of_cons hq

/-- Settles O37: the decoder first, then the two checks of a command in their order; a reset asks for neither. -/
theorem firstApplicableErrorIsReported : Obligations.FirstApplicableErrorIsReported := by
  refine ⟨fun w s _ => ⟨fun hd => ?_, fun c hd hr => ?_, fun c hd hr ho => ?_, fun c hd hr ho => ?_, fun hd hlt _ => ?_⟩,
    fun s rest hq => ⟨_, step_reset hq, rfl⟩⟩
  · cases h : decode w with
    | error r => rw [issue_illegal s h, failedState_cause]; rfl
    | ok c => exact absurd h (hd c)
  · simp [issue_cause_of_decode s hd, hr]
  · simp [issue_cause_of_decode s hd, hr, ho]
  · simp [issue_cause_of_decode s hd, hr, ho]
  · have hr : inRangeOf .inject s = false := by simp [inRangeOf, inRangeInject, Nat.not_le.2 hlt]
    simp [issue_cause_of_decode s hd, hr]

/-! ### How long the indication stays -/

theorem writeReg_status (s : State) (n : Nat) (v : Word) : (s.writeReg n v).status = s.status := by
  rw [writeReg_frame]

/-- While idle, of the host's transactions only a write to CMD changes STATUS. -/
theorem transact_idle_status {s t : State} {x : Transaction} (hb : s.busy = false) (h : transact x s = .next t) :
    t.status = s.status ∨ ∃ w, x = .regWrite 0 w := by
  cases ha : admitted s x with
  | false =>
    rw [transact_not_admitted ha] at h
    cases h
  | true =>
    have kept {u : State} (ht : transact x s = .next u) (hu : u.status = s.status) : t.status = s.status := by
      obtain rfl := Host.Outcome.next.inj (ht.symm.trans h)
      exact hu
    rcases transact_idle_cases hb ha with
      ⟨r, ht⟩ | ⟨a, v, _, _, ht⟩ | ⟨a, v, _, _, ht⟩ | ⟨a, v, _, _, ht⟩ | ⟨n, v, _, ht⟩ | ⟨w, hx, _⟩
    · exact .inl (kept ht (answer_status r s))
    · exact .inl (kept ht rfl)
    · exact .inl (kept ht rfl)
    · exact .inl (kept ht rfl)
    · exact .inl (kept ht (writeReg_status s (n + 1) v))
    · exact .inr ⟨w, hx⟩

theorem waitTurn_status {gaps : List Nat} {s t : State} (h : waitTurn gaps s = .next t) : t.status = s.status := by
  obtain rfl := Host.Outcome.next.inj h
  split <;> rfl

theorem stopOnErrorTurn_status {n : Nat} {s t : State} (h : stopOnErrorTurn n s = .next t) : t.status = s.status := by
  obtain rfl := Host.Outcome.next.inj h
  split <;> rfl

/-- Turn by turn, what can change STATUS of an idle block. -/
theorem takeTurn_idle_status {s t : State} {turn : Turn} (hb : s.busy = false) (h : takeTurn turn s = .next t) :
    t.status = s.status ∨ (∃ w, turn = .host (.regWrite 0 w)) ∨ (∃ w, turn = .command w) ∨ turn = .reset := by
  cases turn with
  | host x =>
    rcases transact_idle_status hb h with hkept | ⟨w, rfl⟩
    · exact .inl hkept
    · exact .inr (.inl ⟨w, rfl⟩)
  | sequencer =>
    obtain rfl := Host.Outcome.next.inj ((sequencerTurn_idle hb).symm.trans h)
    exact .inl rfl
  | command w => exact .inr (.inr (.inl ⟨w, rfl⟩))
  | reset => exact .inr (.inr (.inr rfl))
  | wait gaps => exact .inl (waitTurn_status h)
  | stopOnError n => exact .inl (stopOnErrorTurn_status h)

/-- An issue depends only on what its first lines leave, and those clear STATUS. -/
theorem issue_congr {w : Word} {s t : State} (h : latchCommand w s = latchCommand w t) : issue w s = issue w t := by
  unfold issue
  rw [h]

/-- Settles O39: STATUS turn by turn while idle, and an issue that begins by clearing it. -/
theorem errorStaysUntilNextIssueOrReset : Obligations.ErrorStaysUntilNextIssueOrReset := by
  refine ⟨fun s t hb h => ?_, fun w st s => issue_congr rfl⟩
  cases hq : s.schedule with
  | nil =>
    rw [step_of_empty hq, sequencerTurn_idle hb] at h
    cases h
    exact .inl rfl
  | cons turn rest =>
    rw [step_of_cons hq] at h
    rcases takeTurn_idle_status (s := { s with schedule := rest }) hb h with hkept | ⟨w, rfl⟩ | ⟨w, rfl⟩ | rfl
    · exact .inl hkept
    · exact .inr (.inl ⟨w, rest, rfl⟩)
    · exact .inr (.inr (.inl ⟨w, rest, rfl⟩))
    · exact .inr (.inr (.inr ⟨rest, rfl⟩))

end Sys2Proof.Machine
end

section
/-! Encoding and decoding as inverses; what a step runs; reset; the busy lock. -/

namespace Sys2Proof.Machine

/-! ### Encoding -/

/-- Settles O2: the decoder inverted, in both directions. -/
theorem decodeAndEncodeAgree : Obligations.DecodeAndEncodeAgree :=
  ⟨fun i _ => decode_encode i, fun _ _ h => (eq_encode_of_decode h).symm⟩

theorem decode_append_opcodeOf (c : Instr) : decode (0#24 ++ opcodeOf c) = .ok c := by
  rw [← encode_eq_append, decode_encode]

/-- Settles O3: a written-out word is a command's two fields, and the seven illegal words are no command's word. -/
theorem writtenOutWordsDecode : Obligations.WrittenOutWordsDecode := by
  refine ⟨decode_append_opcodeOf .pack, decode_append_opcodeOf .unpack, decode_append_opcodeOf .inject,
    decode_append_opcodeOf .extract, decode_append_opcodeOf .extractl, fun w hw i hd => ?_⟩
  obtain rfl := eq_encode_of_decode hd
  cases i <;> exact absurd hw (by decide)

/-! ### What a step runs -/

theorem commandTurn_of_decode {w : Word} {c : Instr} (s : State) (h : decode w = .ok c) :
    commandTurn w s = exec c s := by
  simp only [commandTurn, h]

theorem decode_of_decodeTableWord {nbits w : Nat} {c : Instr} (h : decodeTableWord nbits w = some c) :
    decode (BitVec.ofNat 32 w) = .ok c := by
  unfold decodeTableWord at h
  split at h
  next =>
    split at h
    next i hi =>
      cases h
      exact hi
    next => cases h
  next => cases h

/-- Settles O45: the four kinds of turn, each by the entry at the front of the schedule. -/
theorem stepRunsDecodedCommand : Obligations.StepRunsDecodedCommand := by
  refine ⟨fun s w c rest hq hd => ?_, fun s nbits w c hd => ?_, fun s x rest hq => step_of_cons hq,
    fun s hq => step_of_empty hq⟩
  · exact (step_of_cons hq).trans (commandTurn_of_decode _ hd)
  · have hq : (s.withFetchWord nbits w).schedule = .command (BitVec.ofNat 32 w) :: s.schedule := rfl
    exact (step_of_cons hq).trans (commandTurn_of_decode s (decode_of_decodeTableWord hd))

/-! ### Reset -/

/-- Settles O40: the reset state field by field, and its cells, none of which has been written. -/
theorem resetPutsRegistersAtResetValues : Obligations.ResetPutsRegistersAtResetValues := by
  intro s rest hq
  exact ⟨_, step_reset hq, rfl, rfl, rfl, rfl, rfl, rfl, rfl, rfl, rfl, rfl, rfl, rfl, fun _ => rfl, fun _ => rfl,
    fun _ => rfl⟩

/-- Settles O41: the capacities of 00_scope.md R6, idle, with no cell written. -/
theorem resetMeetsInv : Obligations.ResetMeetsInv := inv_of_idle State.reset rfl rfl rfl rfl rfl

/-! ### The busy lock -/

theorem commandTurn_busy {s : State} (w : Word) (hb : s.busy = true) : commandTurn w s = .next s := by
  cases hd : decode w with
  | ok c => rw [commandTurn_of_decode s hd, exec_busy c hb]
  | error r => simp only [commandTurn, hd, hb, if_true]

/-- While busy an admitted transaction changes no more than the replies and the draws. -/
theorem transact_busy_keeps {s : State} {x : Transaction} (hb : s.busy = true) (ha : admitted s x = true) :
    ∃ u, transact x s = .next u ∧ u.block = s.block ∧ u.schedule = s.schedule := by
  rcases transact_busy_cases hb ha with h | ⟨r, h⟩ | ⟨r, h⟩
  · exact ⟨_, h, rfl, rfl⟩
  · exact ⟨_, h, rfl, rfl⟩
  · exact ⟨_, h, rfl, rfl⟩

/-- Settles O9: transactions, whole commands and words written to CMD, each dropped or answered without a trace. -/
theorem busyBlockIsLocked : Obligations.BusyBlockIsLocked := fun _ hb =>
  ⟨fun _ ha => transact_busy_keeps hb ha, fun c => exec_busy c hb, fun w => commandTurn_busy w hb⟩

/-- Admission looks at the capacities alone. -/
theorem admitted_congr {s t : State} (hcap : t.hcap = s.hcap ∧ t.pcap = s.pcap) (x : Transaction) :
    admitted t x = admitted s x := by
  obtain ⟨hhcap, hpcap⟩ := hcap
  have host (a : Nat) : decide (a < t.hostCap) = decide (a < s.hostCap) :=
    congrArg (fun n : Word => decide (a < n.toNat)) hhcap
  have pay (a : Nat) : decide (a < t.payCap) = decide (a < s.payCap) :=
    congrArg (fun n : Word => decide (a < n.toNat)) hpcap
  have bit (a : Nat) : decide (a < t.bitCap) = decide (a < s.bitCap) :=
    congrArg (fun n : Word => decide (a < 8 * n.toNat)) hpcap
  cases x with
  | regRead n | regWrite n v => rfl
  | bufRead sp a =>
    cases sp
    · exact host a
    · exact pay a
    · exact bit a
  | hostWrite a v => exact host a
  | payWrite a v => exact pay a
  | bitWrite a v => exact bit a

/-- A transaction that is answered was admitted. -/
theorem admitted_of_transact {s t : State} {x : Transaction} (h : transact x s = .next t) : admitted s x = true := by
  by_contra ha
  rw [transact_not_admitted (Bool.not_eq_true _ ▸ ha)] at h
  cases h

theorem eq_transactBusy {s t : State} {x : Transaction} (hb : s.busy = true) (h : transact x s = .next t) :
    t = transactBusy s x :=
  Host.Outcome.next.inj (h.symm.trans (transact_of_busy hb (admitted_of_transact h)))

/-- What a busy block answers is made of STATUS, the draws and the earlier replies. -/
theorem transactBusy_reply_congr {s₁ s₂ : State} (x : Transaction) (hs : s₁.status = s₂.status)
    (hd : s₁.draws = s₂.draws) (hr : s₁.replies = s₂.replies) :
    (transactBusy s₁ x).replies = (transactBusy s₂ x).replies ∧
      (transactBusy s₁ x).draws = (transactBusy s₂ x).draws := by
  cases x with
  | regRead n => by_cases hn : n = 1 <;> simp [transactBusy, hn, hs, hd, hr]
  | bufRead sp a => cases sp <;> simp [transactBusy, hd, hr]
  | regWrite n v => exact ⟨hr, hd⟩
  | hostWrite a v => exact ⟨hr, hd⟩
  | payWrite a v => exact ⟨hr, hd⟩
  | bitWrite a v => exact ⟨hr, hd⟩

/-- Settles O10: both blocks answer as `transactBusy`, which looks at nothing they may differ in. -/
theorem busyReadsRevealOnlyStatus : Obligations.BusyReadsRevealOnlyStatus := by
  intro s₁ s₂ x u₁ u₂ hb hs _ _ hd hr h₁ h₂
  have hb₂ : s₂.busy = true := by rw [← hb, State.busy, State.busy, hs]
  rw [eq_transactBusy hb h₁, eq_transactBusy hb₂ h₂]
  exact transactBusy_reply_congr x hs hd hr

end Sys2Proof.Machine
end

section
/-! What one turn can do to the block, said once, and what follows for every step: the capacities stay, the invariant is
kept, and BUSY is cleared by a finish step or a reset alone. -/

namespace Sys2Proof.Machine

/-! ### Whole commands, in every state -/

/-- Everything a command that answers a next state can do, whatever the capacities are: dropped while busy, an error
entry, or its big-step effect from the state its issue leaves. -/
theorem exec_next_cases {c : Instr} {s t : State} (h : exec c s = .next t) :
    (s.busy = true ∧ t = s) ∨ (s.busy = false ∧ ∃ e, t = failedState (encode c) e s) ∨
      (starts c s ∧ ∃ u, effectOf c (startedState c s) = some u ∧ t = endCommand { u with idx := u.cnt }) := by
  cases hb : s.busy
  case true => exact .inl ⟨rfl, Host.Outcome.next.inj (h.symm.trans (exec_busy c hb))⟩
  case false =>
    cases hr : inRangeOf c s
    case false => exact .inr (.inl ⟨rfl, _, Host.Outcome.next.inj (h.symm.trans (exec_outOfRange hb hr))⟩)
    case true =>
      cases ho : overCapacityOf c s
      case true => exact .inr (.inl ⟨rfl, _, Host.Outcome.next.inj (h.symm.trans (exec_overCapacity hb hr ho))⟩)
      case false =>
        have hs : starts c s := ⟨hb, hr, ho⟩
        rw [exec_starts hs] at h
        split at h
        next u hu => exact .inr (.inr ⟨hs, u, hu, (Host.Outcome.next.inj h).symm⟩)
        next => cases h

/-- A big-step effect writes buffers and at most one length register. -/
theorem effectOf_frame {c : Instr} {s u : State} (h : effectOf c s = some u) :
    u = { s with host := u.host, pay := u.pay, bits := u.bits, plen := u.plen, blen := u.blen } := by
  cases c <;>
    simp only [effectOf, effectPack_eq, effectUnpack_eq, effectInject_eq, effectExtract_eq, effectExtractl_eq] at h <;>
    split at h <;> cases h <;> rfl

/-! ### One turn -/

/-- What a turn that answers a next state can do to the block. -/
inductive TurnEffect (s : State) : Turn → State → Prop
  /-- A reply, a poll, a dropped write, a turn of an idle sequencer: the block stays. -/
  | quiet {turn t} (h : t.block = s.block) : TurnEffect s turn t
  /-- A cell of HOST stored while idle. -/
  | hostStore {turn} (a : Nat) (v : Byte) (hb : s.busy = false) (ha : a < s.hostCap) :
      TurnEffect s turn { s with host := Memory.store s.host a v }
  /-- A cell of PAY stored while idle. -/
  | payStore {turn} (a : Nat) (v : Byte) (hb : s.busy = false) (ha : a < s.payCap) :
      TurnEffect s turn { s with pay := Memory.store s.pay a v }
  /-- A cell of BIT stored while idle. -/
  | bitStore {turn} (a : Nat) (v : Bit) (hb : s.busy = false) (ha : a < s.bitCap) :
      TurnEffect s turn { s with bits := Memory.store s.bits a v }
  /-- A length or the limit stored while idle. -/
  | regStore {turn} (n : Nat) (v : Word) (hb : s.busy = false) : TurnEffect s turn (s.writeReg n v)
  /-- A command that failed. -/
  | failed {turn} (w : Word) (e : ErrorCause) (hb : s.busy = false) : TurnEffect s turn (failedState w e s)
  /-- A command issued. -/
  | started {turn} (w : Word) (c : Instr) (h : starts c s) : TurnEffect s turn { startedState c s with cmd := w }
  /-- A whole command. -/
  | whole {turn} (c : Instr) (u : State) (h : starts c s) (hu : effectOf c (startedState c s) = some u) :
      TurnEffect s turn (endCommand { u with idx := u.cnt })
  /-- A bit step. -/
  | bitStep {turn} (c : Instr) (u : State) (hb : s.busy = true) (hc : opcodeInstr s.op = some c)
      (hi : s.idx.toNat < s.cnt.toNat) (hu : bodyOf c s.idx.toNat s = some u) :
      TurnEffect s turn { u with idx := s.idx + 1#32 }
  /-- A finish step: of the sequencer's turns alone. -/
  | finish (c : Instr) (hb : s.busy = true) (hc : opcodeInstr s.op = some c) (hi : s.idx = s.cnt) :
      TurnEffect s .sequencer (finishStep c s)
  /-- A reset. -/
  | reset : TurnEffect s .reset (resetBlock s)

theorem TurnEffect.of_sequencerTurn {s t : State} (h : sequencerTurn s = .next t) : TurnEffect s .sequencer t := by
  cases hb : s.busy
  case false =>
    obtain rfl := Host.Outcome.next.inj ((sequencerTurn_idle hb).symm.trans h)
    exact .quiet rfl
  case true =>
    obtain ⟨c, hc, ⟨hi, u, hu, rfl⟩ | ⟨hi, rfl⟩⟩ := sequencerTurn_cases hb h
    · exact .bitStep c u hb hc hi hu
    · exact .finish c hb hc hi

theorem TurnEffect.of_issue (turn : Turn) {s : State} (w : Word) (hb : s.busy = false) :
    TurnEffect s turn (issue w s) := by
  rcases issue_cases w s with ⟨e, he⟩ | ⟨c, _, hr, ho, hstart⟩
  · exact he ▸ .failed w e hb
  · exact hstart ▸ .started w c ⟨hb, hr, ho⟩

theorem TurnEffect.of_transact {s t : State} {x : Transaction} (turn : Turn) (h : transact x s = .next t) :
    TurnEffect s turn t := by
  have answers {u : State} (hu : transact x s = .next u) (he : TurnEffect s turn u) : TurnEffect s turn t :=
    Host.Outcome.next.inj (hu.symm.trans h) ▸ he
  have ha := admitted_of_transact h
  cases hb : s.busy
  case true =>
    obtain ⟨u, hu, hblock, -⟩ := transact_busy_keeps hb ha
    exact answers hu (.quiet hblock)
  case false =>
    rcases transact_idle_cases hb ha with
      ⟨r, hu⟩ | ⟨a, v, _, hlt, hu⟩ | ⟨a, v, _, hlt, hu⟩ | ⟨a, v, _, hlt, hu⟩ | ⟨n, v, _, hu⟩ | ⟨w, _, hu⟩
    · exact answers hu (.quiet rfl)
    · exact answers hu (.hostStore a v hb hlt)
    · exact answers hu (.payStore a v hb hlt)
    · exact answers hu (.bitStore a v hb hlt)
    · exact answers hu (.regStore (n + 1) v hb)
    · exact answers hu (.of_issue turn w hb)

theorem TurnEffect.of_exec {c : Instr} {s t : State} (turn : Turn) (h : exec c s = .next t) : TurnEffect s turn t := by
  rcases exec_next_cases h with ⟨_, rfl⟩ | ⟨hb, e, rfl⟩ | ⟨hs, u, hu, rfl⟩
  · exact .quiet rfl
  · exact .failed _ e hb
  · exact .whole c u hs hu

theorem TurnEffect.of_commandTurn {w : Word} {s t : State} (turn : Turn) (h : commandTurn w s = .next t) :
    TurnEffect s turn t := by
  cases hb : s.busy
  case true =>
    obtain rfl := Host.Outcome.next.inj ((commandTurn_busy w hb).symm.trans h)
    exact .quiet rfl
  case false =>
    cases hd : decode w with
    | ok c => exact .of_exec turn ((commandTurn_of_decode s hd).symm.trans h)
    | error r =>
      simp only [commandTurn, hd, hb, Bool.false_eq_true, if_false, Host.Outcome.next.injEq] at h
      exact h ▸ .of_issue turn w hb

theorem waitTurn_block {gaps : List Nat} {s t : State} (h : waitTurn gaps s = .next t) : t.block = s.block := by
  obtain rfl := Host.Outcome.next.inj h
  split <;> rfl

theorem stopOnErrorTurn_block {n : Nat} {s t : State} (h : stopOnErrorTurn n s = .next t) : t.block = s.block := by
  obtain rfl := Host.Outcome.next.inj h
  split <;> rfl

theorem TurnEffect.of_takeTurn {s t : State} {turn : Turn} (h : takeTurn turn s = .next t) : TurnEffect s turn t := by
  cases turn with
  | host x => exact .of_transact _ h
  | sequencer => exact .of_sequencerTurn h
  | command w => exact .of_commandTurn _ h
  | reset =>
    obtain rfl := Host.Outcome.next.inj h
    exact .reset
  | wait gaps => exact .quiet (waitTurn_block h)
  | stopOnError n => exact .quiet (stopOnErrorTurn_block h)

/-- The state in which the next turn is taken: its entry is off the schedule. -/
def State.popTurn (s : State) : State := { s with schedule := s.schedule.tail }

theorem State.popTurn_of_empty {s : State} (hq : s.schedule = []) : s.popTurn = s :=
  congrArg (fun q => { s with schedule := q }) (hq ▸ rfl : s.schedule.tail = s.schedule)

/-- A step is one turn: the scheduled one, or the sequencer's when nothing is scheduled. -/
theorem step_eq_takeTurn (s : State) : ∃ turn,
    ((s.schedule = [] ∧ turn = .sequencer) ∨ ∃ rest, s.schedule = turn :: rest) ∧ step s = takeTurn turn s.popTurn := by
  cases hq : s.schedule with
  | nil => exact ⟨.sequencer, .inl ⟨rfl, rfl⟩, by rw [State.popTurn_of_empty hq, step_of_empty hq]; rfl⟩
  | cons turn rest => exact ⟨turn, .inr ⟨rest, rfl⟩, by rw [step_of_cons hq, State.popTurn, hq]; rfl⟩

/-! ### The capacities -/

theorem TurnEffect.caps {s t : State} {turn : Turn} (h : TurnEffect s turn t) : t.hcap = s.hcap ∧ t.pcap = s.pcap := by
  cases h with
  | quiet h => exact ⟨(congrArg State.hcap h :), (congrArg State.pcap h :)⟩
  | regStore n v _ =>
    rw [writeReg_frame]
    exact ⟨rfl, rfl⟩
  | whole c u _ hu =>
    have hf := effectOf_frame hu
    exact ⟨(congrArg State.hcap hf :), (congrArg State.pcap hf :)⟩
  | bitStep c u _ _ _ hu =>
    have hf := bodyOf_frame hu
    exact ⟨(congrArg State.hcap hf :), (congrArg State.pcap hf :)⟩
  | finish c _ _ _ => cases c <;> exact ⟨rfl, rfl⟩
  | hostStore | payStore | bitStore | failed | started | reset => exact ⟨rfl, rfl⟩

/-- Settles O44: no effect of a turn writes HCAP or PCAP. -/
theorem capacitiesNeverChange : Obligations.CapacitiesNeverChange := by
  intro s t h
  obtain ⟨turn, -, hturn⟩ := step_eq_takeTurn s
  exact (TurnEffect.of_takeTurn (hturn.symm.trans h)).caps

/-! ### The invariant -/

theorem latchesOk_iff (s : State) : latchesOk s ↔ ∃ c, opcodeInstr s.op = some c ∧ inRangeOf c s = true ∧
    overCapacityOf c s = false ∧ s.cnt.toNat = countOf c s ∧ s.idx.toNat ≤ s.cnt.toNat := by
  unfold latchesOk
  cases opcodeInstr s.op <;> simp

/-- What the latches are judged by: everything but the buffers, STATUS and the model's own bookkeeping, with IDX
anywhere up to CNT. -/
theorem latchesOk_of_frame {s t : State} (h : latchesOk s) (hi : t.idx.toNat ≤ t.cnt.toNat)
    (ht : t = { s with
      host := t.host, pay := t.pay, bits := t.bits, status := t.status, idx := t.idx, schedule := t.schedule,
      replies := t.replies, draws := t.draws }) : latchesOk t := by
  obtain ⟨c, hc, hr, ho, hn, -⟩ := (latchesOk_iff s).1 h
  rw [latchesOk_iff]
  refine ⟨c, ?_, ?_, ?_, ?_, hi⟩ <;> rw [ht]
  · exact hc
  · rw [← hr]
    cases c <;> rfl
  · rw [← ho]
    cases c <;> rfl
  · refine hn.trans ?_
    cases c <;> rfl

/-- The invariant looks at the block alone. -/
theorem Inv.of_block {s t : State} (hv : Inv s) (h : t.block = s.block) : Inv t := by
  have hrun (hb : s.busy = true) : latchesOk t := by
    obtain ⟨-, -, -, -, -, hi⟩ := (latchesOk_iff s).1 (hv.running hb)
    exact latchesOk_of_frame (hv.running hb) (by rw [eq_of_block h]; exact hi) (by rw [eq_of_block h])
  rw [eq_of_block h] at hrun ⊢
  exact ⟨hv.capacities, hv.hostWf, hv.payWf, hv.bitsWf, hv.statusLegal, hrun, hv.errIdx⟩

/-- From a state that meets the invariant to an idle one with the same capacities: canonical buffers, and a
STATUS that goes with IDX, are all it takes. -/
theorem Inv.of_idle {s t : State} (hv : Inv s) (hcap : t.hcap = s.hcap ∧ t.pcap = s.pcap)
    (hwf : Memory.wf s.hostCap t.host ∧ Memory.wf s.payCap t.pay ∧ Memory.wf s.bitCap t.bits)
    (hl : legalStatus t.status) (hb : t.busy = false) (he : t.err = true → t.idx = 0#32) : Inv t := by
  obtain ⟨hhcap, hpcap⟩ := hcap
  have hhost : t.hostCap = s.hostCap := congrArg BitVec.toNat hhcap
  have hpay : t.payCap = s.payCap := congrArg BitVec.toNat hpcap
  have hbit : t.bitCap = s.bitCap := congrArg (8 * ·) hpay
  obtain ⟨hwhost, hwpay, hwbit⟩ := hwf
  refine ⟨?_, hhost ▸ hwhost, hpay ▸ hwpay, hbit ▸ hwbit, hl, fun h => absurd (hb.symm.trans h) Bool.false_ne_true, he⟩
  unfold State.capacitiesOk
  rw [hhost, hpay]
  exact hv.capacities

theorem Inv.wf {s : State} (hv : Inv s) :
    Memory.wf s.hostCap s.host ∧ Memory.wf s.payCap s.pay ∧ Memory.wf s.bitCap s.bits :=
  ⟨hv.hostWf, hv.payWf, hv.bitsWf⟩

/-- STATUS after a reset, while a command runs, and after it (10_state.md R27). -/
theorem legalStatus_error_free : legalStatus 0x0#32 ∧ legalStatus 0x1#32 ∧ legalStatus 0x2#32 := by
  unfold legalStatus
  decide

theorem legalStatus_errorStatus (e : ErrorCause) : legalStatus (errorStatus e) := by
  unfold legalStatus
  cases e <;> decide

theorem Inv.after_error {s : State} (hv : Inv s) (w : Word) (e : ErrorCause) : Inv (failedState w e s) :=
  hv.of_idle ⟨rfl, rfl⟩ hv.wf (legalStatus_errorStatus e) (failedState_idle w e s) fun _ => rfl

/-- A command issue latches what 10_state.md R36 (b) asks of a running command. -/
theorem Inv.after_start {s : State} (hv : Inv s) {c : Instr} (h : starts c s) (w : Word) :
    Inv { startedState c s with cmd := w } := by
  obtain ⟨-, hr, ho⟩ := h
  have hfit : countOf c s < 2 ^ 32 := by
    have hle := (countOf_le hv.capacities hr ho).1
    have hb := capacitiesOk_bounds hv.capacities
    omega
  refine ⟨hv.capacities, hv.hostWf, hv.payWf, hv.bitsWf, legalStatus_error_free.2.1, fun _ => ?_, fun _ => rfl⟩
  refine (latchesOk_iff _).2 ⟨c, opcodeInstr_opcodeOf c, ?_, ?_, (toNat_count hfit).trans ?_, Nat.zero_le _⟩
  · rw [← hr]
    cases c <;> rfl
  · rw [← ho]
    cases c <;> rfl
  · cases c <;> rfl

/-- The end of any command, whichever length register it wrote. -/
theorem Inv.of_done {s t : State} (hv : Inv s) (hcap : t.hcap = s.hcap ∧ t.pcap = s.pcap)
    (hwf : Memory.wf s.hostCap t.host ∧ Memory.wf s.payCap t.pay ∧ Memory.wf s.bitCap t.bits)
    (hs : t.status = 0x2#32) : Inv t :=
  hv.of_idle hcap hwf (hs ▸ legalStatus_error_free.2.2) (busy_of_status hs)
    fun he => absurd ((err_of_status hs).symm.trans he) Bool.false_ne_true

/-- The closed form of a whole command keeps its buffers in canonical form. -/
theorem effectOf_wf {c : Instr} {s u : State} (hv : Inv s) (h : starts c s)
    (hu : effectOf c (startedState c s) = some u) :
    Memory.wf s.hostCap u.host ∧ Memory.wf s.payCap u.pay ∧ Memory.wf s.bitCap u.bits := by
  rw [effectOf_eq_forEach hv.capacities h, Option.map_eq_some_iff] at hu
  obtain ⟨v, hv', rfl⟩ := hu
  have hwf := forEach_wf hv' hv.hostWf hv.payWf hv.bitsWf
  cases c <;> exact hwf

theorem Inv.after_whole {c : Instr} {s u : State} (hv : Inv s) (h : starts c s)
    (hu : effectOf c (startedState c s) = some u) : Inv (endCommand { u with idx := u.cnt }) := by
  have hf := effectOf_frame hu
  have hwf := effectOf_wf hv h hu
  have hs : u.status = 0x1#32 := congrArg State.status hf
  have he : endCommand { u with idx := u.cnt } = { u with idx := u.cnt, status := 0x2#32 } := endCommand_busy _ hs
  rw [he]
  exact hv.of_done ⟨(congrArg State.hcap hf :), (congrArg State.pcap hf :)⟩ hwf rfl

theorem Inv.after_bit {c : Instr} {s u : State} (hv : Inv s) (hb : s.busy = true) (hi : s.idx.toNat < s.cnt.toNat)
    (hu : bodyOf c s.idx.toNat s = some u) : Inv { u with idx := s.idx + 1#32 } := by
  have hf := bodyOf_frame hu
  obtain ⟨hwhost, hwpay, hwbit⟩ := bodyOf_wf hu hv.hostWf hv.payWf hv.bitsWf
  have hs := legalStatus_busy hv.statusLegal hb
  have hnext : (s.idx + 1#32).toNat ≤ s.cnt.toNat := by bv_omega
  rw [hf]
  refine ⟨hv.capacities, hwhost, hwpay, hwbit, hv.statusLegal, fun _ => ?_, fun he => ?_⟩
  · exact latchesOk_of_frame (hv.running hb) hnext rfl
  · exact absurd ((err_of_status (s := s) hs).symm.trans he) Bool.false_ne_true

theorem Inv.after_finish {s : State} (hv : Inv s) (hb : s.busy = true) (c : Instr) : Inv (finishStep c s) := by
  have hf := finishStep_frame c s (legalStatus_busy hv.statusLegal hb)
  rw [hf]
  exact hv.of_done ⟨rfl, rfl⟩ hv.wf rfl

theorem Inv.after_reset {s : State} (hv : Inv s) : Inv (resetBlock s) :=
  hv.of_idle ⟨rfl, rfl⟩ ⟨Memory.nil_wf _, Memory.nil_wf _, Memory.nil_wf _⟩ legalStatus_error_free.1
    (busy_of_status (resetBlock_status s)) fun _ => rfl

theorem Inv.of_turnEffect {s t : State} {turn : Turn} (hv : Inv s) (h : TurnEffect s turn t) : Inv t := by
  cases h with
  | quiet h => exact hv.of_block h
  | hostStore a v hb ha =>
    exact hv.of_idle ⟨rfl, rfl⟩ ⟨Memory.store_wf v hv.hostWf ha, hv.payWf, hv.bitsWf⟩ hv.statusLegal hb hv.errIdx
  | payStore a v hb ha =>
    exact hv.of_idle ⟨rfl, rfl⟩ ⟨hv.hostWf, Memory.store_wf v hv.payWf ha, hv.bitsWf⟩ hv.statusLegal hb hv.errIdx
  | bitStore a v hb ha =>
    exact hv.of_idle ⟨rfl, rfl⟩ ⟨hv.hostWf, hv.payWf, Memory.store_wf v hv.bitsWf ha⟩ hv.statusLegal hb hv.errIdx
  | regStore n v hb =>
    rw [writeReg_frame]
    exact hv.of_idle ⟨rfl, rfl⟩ hv.wf hv.statusLegal hb hv.errIdx
  | failed w e _ => exact hv.after_error w e
  | started w c h => exact hv.after_start h w
  | whole c u h hu => exact hv.after_whole h hu
  | bitStep c u hb _ hi hu => exact hv.after_bit hb hi hu
  | finish c hb _ _ => exact hv.after_finish hb c
  | reset => exact hv.after_reset

theorem Inv.popTurn {s : State} (hv : Inv s) : Inv s.popTurn := hv.of_block rfl

/-- Settles O42: a step is one turn, and every effect of a turn keeps the invariant. -/
theorem stepKeepsInv : Obligations.StepKeepsInv := by
  intro s t hv h
  obtain ⟨turn, -, hturn⟩ := step_eq_takeTurn s
  exact hv.popTurn.of_turnEffect (.of_takeTurn (hturn.symm.trans h))

/-! ### Faults and refusals -/

/-- A command of a state that meets the invariant is answered. -/
theorem exec_next_of_inv {s : State} (hv : Inv s) (c : Instr) : ∃ t, exec c s = .next t := by
  rcases exec_cases c hv.capacities with ⟨_, h⟩ | ⟨_, _, h⟩ | ⟨_, _, _, h⟩ <;> exact ⟨_, h⟩

theorem sequencerTurn_next_of_inv {s : State} (hv : Inv s) : ∃ t, sequencerTurn s = .next t := by
  cases hb : s.busy
  case false => exact ⟨s, sequencerTurn_idle hb⟩
  case true => obtain ⟨_, _, ⟨_, _, _, h⟩ | ⟨_, h⟩⟩ := sequencerTurn_enabled hv hb <;> exact ⟨_, h⟩

/-- Every turn of a state that meets the invariant is answered, but for a transaction that is not admitted. -/
theorem takeTurn_next_of_inv {s : State} (hv : Inv s) {turn : Turn} (ha : ∀ x, turn = .host x → admitted s x = true) :
    ∃ t, takeTurn turn s = .next t := by
  cases turn with
  | host x => exact transact_next_of_admitted (ha x rfl)
  | sequencer => exact sequencerTurn_next_of_inv hv
  | command w =>
    cases hd : decode w with
    | ok c =>
      obtain ⟨t, ht⟩ := exec_next_of_inv hv c
      exact ⟨t, (commandTurn_of_decode s hd).trans ht⟩
    | error r =>
      refine ⟨if s.busy then s else issue w s, ?_⟩
      simp only [takeTurn, commandTurn, hd]
  | reset => exact ⟨_, rfl⟩
  | wait gaps => exact ⟨_, rfl⟩
  | stopOnError n => exact ⟨_, rfl⟩

/-- The one way a step of such a state is not answered. -/
theorem step_next_or_not_admitted {s : State} (hv : Inv s) : (∃ t, step s = .next t) ∨
    (step s = .refused .notAdmitted ∧ ∃ x rest, s.schedule = .host x :: rest ∧ admitted s x = false) := by
  obtain ⟨turn, hq, hstep⟩ := step_eq_takeTurn s
  rw [hstep]
  by_cases ha : ∀ x, turn = .host x → admitted s.popTurn x = true
  · exact .inl (takeTurn_next_of_inv hv.popTurn ha)
  · push Not at ha
    obtain ⟨x, rfl, hx⟩ := ha
    replace hx : admitted s.popTurn x = false := Bool.not_eq_true _ ▸ hx
    obtain ⟨rest, hq⟩ : ∃ rest, s.schedule = .host x :: rest := by simpa using hq
    exact .inr ⟨transact_not_admitted hx, x, rest, hq, (admitted_congr (s := s.popTurn) ⟨rfl, rfl⟩ x).trans hx⟩

/-- Settles O43: from the invariant, a step that is not answered is a transaction that is not admitted. -/
theorem stepFromInvNeverFaults : Obligations.StepFromInvNeverFaults := by
  intro s hv
  rcases step_next_or_not_admitted hv with ⟨t, ht⟩ | ⟨ht, hx⟩
  · refine ⟨fun _ h => ?_, fun _ h => ?_⟩ <;> cases ht.symm.trans h
  · exact ⟨fun _ h => (by cases ht.symm.trans h), fun _ _ => hx⟩

/-! ### Who clears BUSY -/

/-- Of the effects of a turn, two lead from busy to idle. -/
theorem TurnEffect.of_clears_busy {s t : State} {turn : Turn} (h : TurnEffect s turn t) (hb : s.busy = true)
    (ht : t.busy = false) : turn = .reset ∨
      (turn = .sequencer ∧ s.idx = s.cnt ∧ ∃ c, opcodeInstr s.op = some c ∧ t = finishStep c s) := by
  have idle {p : Prop} (hi : s.busy = false) : p := absurd (hb.symm.trans hi) (by decide)
  have kept {p : Prop} (hst : t.status = s.status) : p := idle ((congrArg statusBusy hst).symm.trans ht)
  cases h with
  | quiet h => exact kept (congrArg State.status h :)
  | bitStep c u _ _ _ hu => exact kept (congrArg State.status (bodyOf_frame hu) :)
  | finish c _ hc hi => exact .inr ⟨rfl, hi, c, hc, rfl⟩
  | reset => exact .inl rfl
  | started _ _ hs | whole _ _ hs _ => exact idle hs.1
  | hostStore _ _ hi | payStore _ _ hi | bitStore _ _ hi | regStore _ _ hi | failed _ _ hi => exact idle hi

theorem finishStep_popTurn (c : Instr) (s : State) :
    finishStep c s.popTurn = { finishStep c s with schedule := s.schedule.tail } := by cases c <;> rfl

/-- Settles O11: the step's turn, then the two effects that clear BUSY. -/
theorem onlyFinishOrResetClearsBusy : Obligations.OnlyFinishOrResetClearsBusy := by
  intro s t hb h ht
  obtain ⟨turn, hq, hturn⟩ := step_eq_takeTurn s
  rcases (TurnEffect.of_takeTurn (hturn.symm.trans h)).of_clears_busy hb ht with rfl | ⟨rfl, hi, c, hc, rfl⟩
  · exact .inl (by simpa using hq)
  · exact .inr ⟨hi, by simpa using hq, c, hc, finishStep_popTurn c s⟩

end Sys2Proof.Machine
end

section
/-! Frames and equalities of the whole commands, bit steps in either order, and the laws of pack and unpack. -/

namespace Sys2Proof.Machine

/-! ### Counts -/

/-- Settles O14: the counts against the capacities, and a body wherever its index is below them. -/
theorem startedCommandStaysInsideBuffers : Obligations.StartedCommandStaysInsideBuffers := by
  intro c s hc hr ho
  obtain ⟨hbit, hhost⟩ := countOf_le hc hr ho
  obtain ⟨-, -, -, -, hfit⟩ := capacitiesOk_bounds hc
  exact ⟨hbit, toNat_count (hbit.trans_lt hfit), fun i hi =>
    bodyOf_isSome (hi.trans_le hbit) fun hhas => hi.trans_le (hhost hhas)⟩

/-! ### Two bit steps -/

/-- Two bits of one byte can be put in either order. -/
theorem putbit_comm (p : Byte) (b c : Bit) {k j : Nat} (hk : k < 8) (hj : j < 8) (h : k ≠ j) :
    putbit (putbit p k b) j c = putbit (putbit p j c) k b := by
  refine byte_ext fun i hi => ?_
  rw [msbbit_putbit _ _ hj hi, msbbit_putbit _ _ hk hi, msbbit_putbit _ _ hk hi, msbbit_putbit _ _ hj hi]
  exact ite_ite_comm (i = j) (i = k) c b fun (hij : i = j) (hik : i = k) => h (hik.symm.trans hij)

/-- Two partial updates of one buffer commute if the updates do: whether they exist does not depend on the buffer. -/
theorem bind_comm_of_update_comm {α : Type} {put : α → State} {f : Nat → State → Option State} {ok : Nat → Prop}
    [DecidablePred ok] {g : Nat → α → α}
    (hf : ∀ i m, f i (put m) = if ok i then some (put (g i m)) else none) {i j : Nat} {m : α}
    (hg : g j (g i m) = g i (g j m)) : (f i (put m)).bind (f j) = (f j (put m)).bind (f i) := by
  by_cases hi : ok i <;> by_cases hj : ok j <;> simp [hf, hi, hj, hg]

/-- Bits stored in two cells, each bit and each check apart from BIT. -/
theorem bind_comm_of_bit_stores {f : Nat → State → Option State} {s : State} (v : Nat → Bit) (ok : Nat → Prop)
    [DecidablePred ok] (hf : ∀ i m, f i { s with bits := m } =
      if ok i then some { s with bits := Memory.store m i (v i) } else none) {i j : Nat} (h : i ≠ j) :
    (f i s).bind (f j) = (f j s).bind (f i) :=
  bind_comm_of_update_comm (put := fun m => { s with bits := m }) hf (Memory.store_comm s.bits (v i) (v j) h)

/-- Settles O22: each command's body is a partial update of its destination, and two of them meet in one cell only for
UNPACK, where they put two bits of one byte. -/
theorem bitStepsOfACommandCommute : Obligations.BitStepsOfACommandCommute := by
  intro c s i j h
  cases c with
  | pack =>
    exact bind_comm_of_bit_stores (fun i => msbbit (s.payAt (i / 8)) (i % 8)) (· < s.bitCap)
      (fun i m => bodyPack_eq i { s with bits := m }) h
  | unpack =>
    refine bind_comm_of_update_comm (put := fun m => { s with pay := m }) (m := s.pay) (ok := (· < s.bitCap))
      (g := fun i m => Memory.store m (i / 8) (putbit (State.payAt { s with pay := m } (i / 8)) (i % 8) (s.bitAt i)))
      (fun i m => bodyUnpack_eq i { s with pay := m }) ?_
    by_cases hcell : i / 8 = j / 8
    · simp only [payAt_store, hcell, if_true, Memory.store_store]
      exact congrArg _ (putbit_comm _ _ _ (Nat.mod_lt _ (by decide)) (Nat.mod_lt _ (by decide)) (by omega))
    · simp only [payAt_store, hcell, Ne.symm hcell, if_false]
      exact Memory.store_comm s.pay _ _ hcell
  | inject =>
    refine bind_comm_of_update_comm (put := fun m => { s with host := m }) (m := s.host)
      (ok := fun i => i < s.hostCap ∧ i < s.bitCap)
      (g := fun i m => Memory.store m i (setlsb (State.hostAt { s with host := m } i) (s.bitAt i)))
      (fun i m => bodyInject_eq i { s with host := m }) ?_
    simp only [hostAt_store, h, h.symm, if_false]
    exact Memory.store_comm s.host _ _ h
  | extract | extractl =>
    exact bind_comm_of_bit_stores (fun i => lsb (s.hostAt i)) (fun i => i < s.hostCap ∧ i < s.bitCap)
      (fun i m => extractOne_eq i { s with bits := m }) h

/-! ### Frames -/

theorem readHost_congr {s t : State} {a : Nat} (hcap : t.hcap = s.hcap) (h : t.hostAt a = s.hostAt a) :
    t.readHost a = s.readHost a := by
  rw [State.readHost, State.readHost, State.hostCap, State.hostCap, hcap, h]

theorem readPay_congr {s t : State} {a : Nat} (hcap : t.pcap = s.pcap) (h : t.payAt a = s.payAt a) :
    t.readPay a = s.readPay a := by
  rw [State.readPay, State.readPay, State.payCap, State.payCap, hcap, h]

theorem readBit_congr {s t : State} {a : Nat} (hcap : t.pcap = s.pcap) (h : t.bitAt a = s.bitAt a) :
    t.readBit a = s.readBit a := by
  rw [State.readBit, State.readBit, State.bitCap, State.bitCap, State.payCap, State.payCap, hcap, h]

/-- The effect of a bit-writing command: as many bits as its count, and BLEN. -/
theorem effectOf_bitWriting {c : Instr} {s u : State} (hc : c = .pack ∨ c = .extract ∨ c = .extractl)
    (h : effectOf c s = some u) :
    ∃ (f : Nat → Bit) (n : Word), u = { s with bits := storeSeq s.bits f (countOf c s), blen := n } := by
  rcases hc with rfl | hc
  · simp only [effectOf, effectPack_eq] at h
    split at h <;> cases h
    exact ⟨_, _, rfl⟩
  · rw [effectOf_extraction hc] at h
    split at h <;> cases h
    exact ⟨_, _, rfl⟩

/-- Settles O28: a command dropped or failed stores nothing, and one that starts stores as many bits as its count. -/
theorem bitWritingCommandsFrame : Obligations.BitWritingCommandsFrame := by
  intro c s t hc h
  have hcells (hpcap : t.pcap = s.pcap) (hhost : t.readHost = s.readHost) (hpay : t.readPay = s.readPay)
      (hbits : ∀ a, countOf c s ≤ a → t.bitAt a = s.bitAt a) :
      (∀ a, t.readHost a = s.readHost a) ∧ (∀ a, t.readPay a = s.readPay a) ∧
        ∀ a, countOf c s ≤ a → t.readBit a = s.readBit a :=
    ⟨congrFun hhost, congrFun hpay, fun a ha => readBit_congr hpcap (hbits a ha)⟩
  rcases exec_next_cases h with ⟨_, rfl⟩ | ⟨_, e, rfl⟩ | ⟨_, u, hu, rfl⟩
  · exact ⟨rfl, hcells rfl rfl rfl fun _ _ => rfl⟩
  · exact ⟨rfl, hcells rfl rfl rfl fun _ _ => rfl⟩
  · obtain ⟨f, n, rfl⟩ := effectOf_bitWriting hc hu
    refine ⟨rfl, hcells rfl rfl rfl fun a ha => ?_⟩
    exact (bitAt_storeSeq s f (countOf c (startedState c s)) a).trans
      (if_neg (by rw [countOf_startedState]; exact Nat.not_lt.2 ha))

/-- Settles O29: a command dropped or failed stores nothing, and one that starts stores `BLEN div 8` bytes of PAY. -/
theorem unpackFrame : Obligations.UnpackFrame := by
  intro s t h
  rcases exec_next_cases h with ⟨_, rfl⟩ | ⟨_, e, rfl⟩ | ⟨_, u, hu, rfl⟩
  · exact ⟨rfl, fun _ => rfl, fun _ => rfl, fun _ _ => rfl⟩
  · exact ⟨rfl, fun _ => rfl, fun _ => rfl, fun _ _ => rfl⟩
  · simp only [effectOf, effectUnpack_eq] at hu
    split at hu <;> cases hu
    refine ⟨rfl, fun _ => rfl, fun _ => rfl, fun a ha => readPay_congr rfl ?_⟩
    exact (payAt_storeSeq s (unpackedByte s) (s.blen.toNat / 8) a).trans (if_neg (Nat.not_lt.2 ha))

/-- Settles O30: a command dropped or failed stores nothing, and one that starts overwrites the LSBs of `BLEN` bytes. -/
theorem injectFrame : Obligations.InjectFrame := by
  intro s t h
  rcases exec_next_cases h with ⟨_, rfl⟩ | ⟨_, e, rfl⟩ | ⟨_, u, hu, rfl⟩
  · exact ⟨rfl, fun _ => rfl, fun _ => rfl, fun _ _ => rfl, fun _ => rfl⟩
  · exact ⟨rfl, fun _ => rfl, fun _ => rfl, fun _ _ => rfl, fun _ => rfl⟩
  · simp only [effectOf, effectInject_eq] at hu
    split at hu <;> cases hu
    have hcell := hostAt_storeSeq s (fun i => setlsb (s.hostAt i) (s.bitAt i)) s.blen.toNat
    refine ⟨rfl, fun _ => rfl, fun _ => rfl, fun a ha => readHost_congr rfl ?_, fun a => ?_⟩
    · exact (hcell a).trans (if_neg (Nat.not_lt.2 ha))
    · refine (congrArg _ (hcell a)).trans ?_
      split
      · exact setlsb_high _ _
      · rfl

/-! ### Equalities of whole commands -/

/-- Settles O33: with `HLEN <= LIMIT` the two closed forms have one count. -/
theorem extractlWithLargeLimitIsExtract : Obligations.ExtractlWithLargeLimitIsExtract := by
  intro s hc hb hl hh
  have hextractl := exec_extractl_starts hc hb hh
  rw [Nat.min_eq_left hl, BitVec.ofNat_toNat, BitVec.setWidth_eq] at hextractl
  exact ⟨_, _, exec_extract_starts hc hb hh, hextractl, rfl⟩

/-- The end state of an INJECT that starts. -/
def injected (s : State) : State :=
  { s with
    host := storeSeq s.host (fun i => setlsb (s.hostAt i) (s.bitAt i)) s.blen.toNat
    cmd := 3#32, status := 2#32, idx := s.blen, op := 3#8, cnt := s.blen }

theorem exec_inject_eq_injected {s : State} (h : starts .inject s) : exec .inject s = .next (injected s) := by
  obtain ⟨hb, hr, ho⟩ := h
  obtain ⟨hbit, hhost⟩ := (inRangeOf_inject_iff s).1 hr
  exact exec_inject_starts hb hbit hhost (Nat.not_lt.1 (of_decide_eq_false ho))

theorem injected_starts {s : State} (h : starts .inject s) : starts .inject (injected s) :=
  ⟨busy_of_status (st := 2#32) rfl, h.2⟩

/-- The stores of the second INJECT meet those of the first, and each byte keeps the bit it has. -/
theorem injected_injected (s : State) : injected (injected s) = injected s := by
  have hhost : (injected (injected s)).host = (injected s).host := by
    refine (storeSeq_congr _ fun i hi => ?_).trans (storeSeq_storeSeq s.host _ _ s.blen.toNat)
    refine (congrArg (setlsb · (s.bitAt i)) ((hostAt_storeSeq s _ s.blen.toNat i).trans (if_pos hi))).trans ?_
    exact setlsb_setlsb _ _ _
  exact congrArg (fun m => { injected s with host := m }) hhost

/-- Settles O34: INJECT starts again on its own end state, and that state is a fixed point. -/
theorem injectTwiceIsInjectOnce : Obligations.InjectTwiceIsInjectOnce := by
  intro s t u hb ho hr hst htu
  have hs : starts .inject s := ⟨hb, hr, ho⟩
  obtain rfl := Host.Outcome.next.inj ((exec_inject_eq_injected hs).symm.trans hst)
  obtain rfl := Host.Outcome.next.inj ((exec_inject_eq_injected (injected_starts hs)).symm.trans htu)
  exact injected_injected s

/-! ### Commands with nothing to do -/

theorem starts_of_zero {s : State} (hb : s.busy = false) (hh : s.hlen = 0#32) (hp : s.plen = 0#32) (hl : s.blen = 0#32)
    (c : Instr) : starts c s := by
  refine ⟨hb, ?_, ?_⟩
  · cases c <;>
      simp [inRangeOf, inRangePack, inRangeUnpack, inRangeInject, inRangeExtract, inRangeExtractl, hh, hp, hl]
  · cases c <;> simp [overCapacityOf, overCapacity, hh, hl]

theorem countOf_of_zero {s : State} (hh : s.hlen = 0#32) (hp : s.plen = 0#32) (hl : s.blen = 0#32) (c : Instr) :
    countOf c s = 0 := by
  cases c <;> simp [countOf, countPack, countUnpack, countInject, countExtract, countExtractl, hh, hp, hl]

/-- With all lengths 0 the length register a command writes is 0 already. -/
theorem effectOf_of_zero {s : State} (hh : s.hlen = 0#32) (hp : s.plen = 0#32) (hl : s.blen = 0#32) (c : Instr) :
    effectOf c s = some s := by
  obtain ⟨host, pay, bits, cmd, status, hlen, plen, blen, limit, idx, hcap, pcap, op, cnt, epoch, draws, schedule,
    replies⟩ := s
  subst hh hp hl
  cases c <;> simp [effectOf, effectPack, effectUnpack, effectInject, effectExtract, effectExtractl, forEach]

/-- The end state of a command that had no bit to move. -/
def finishedAtOnce (c : Instr) (s : State) : State :=
  { s with cmd := encode c, status := 0x2#32, idx := 0#32, op := opcodeOf c, cnt := 0#32 }

/-- The issue of a command with nothing to do: what is missing is STATUS. -/
theorem startedState_of_zero {s : State} (hh : s.hlen = 0#32) (hp : s.plen = 0#32) (hl : s.blen = 0#32) (c : Instr) :
    startedState c s = { finishedAtOnce c s with status := 0x1#32 } := by
  rw [startedState, countOf_of_zero hh hp hl]
  rfl

theorem finishOf_of_zero {s : State} (hp : s.plen = 0#32) (hl : s.blen = 0#32) (hc : s.cnt = 0#32) (c : Instr) :
    finishOf c s = s := by
  obtain ⟨host, pay, bits, cmd, status, hlen, plen, blen, limit, idx, hcap, pcap, op, cnt, epoch, draws, schedule,
    replies⟩ := s
  subst hp hl hc
  cases c with
  | unpack => simp [finishOf, finishUnpack]
  | pack | inject | extract | extractl => rfl

/-- The whole command: an empty effect between the issue and the finish step. -/
theorem exec_of_zero {s : State} (hb : s.busy = false) (hh : s.hlen = 0#32) (hp : s.plen = 0#32) (hl : s.blen = 0#32)
    (c : Instr) : exec c s = .next (finishedAtOnce c s) := by
  rw [exec_starts (starts_of_zero hb hh hp hl c), effectOf_of_zero (s := startedState c s) hh hp hl,
    startedState_of_zero hh hp hl]
  exact congrArg _ (endCommand_busy _ rfl)

/-- The sequencer's first turn after the issue is the finish step. -/
theorem sequencerTurn_of_zero {s : State} (hh : s.hlen = 0#32) (hp : s.plen = 0#32) (hl : s.blen = 0#32) (c : Instr) :
    sequencerTurn (startedState c s) = .next (finishedAtOnce c s) := by
  have hcnt : (startedState c s).cnt = 0#32 := congrArg (BitVec.ofNat 32) (countOf_of_zero hh hp hl c)
  rw [sequencerTurn_finish (startedState_busy c s) (opcodeInstr_opcodeOf c) hcnt.symm, finishStep,
    finishOf_of_zero (s := startedState c s) hp hl hcnt, startedState_of_zero hh hp hl]
  exact congrArg _ (endCommand_busy _ rfl)

/-- Settles O35: as a whole command, and as its issue followed by the one sequencer step it needs. -/
theorem zeroLengthCommandOnlyFinishes : Obligations.ZeroLengthCommandOnlyFinishes := by
  intro c s hb hh hp hl
  refine ⟨exec_of_zero hb hh hp hl c, ?_⟩
  have hissue : issue (encode c) { s with schedule := [] } = startedState c { s with schedule := [] } := by
    obtain ⟨-, hr, ho⟩ := starts_of_zero (s := { s with schedule := [] }) hb hh hp hl c
    simp [issue_encode, hr, ho]
  have hfirst : step { s with schedule := [.host (.regWrite 0 (encode c))] } =
      .next (startedState c { s with schedule := [] }) :=
    hissue ▸ step_cmd (s := { s with schedule := [.host (.regWrite 0 (encode c))] }) hb rfl
  have hsecond : step (startedState c { s with schedule := [] }) = .next (finishedAtOnce c { s with schedule := [] }) :=
    (step_of_empty rfl).trans (sequencerTurn_of_zero (s := { s with schedule := [] }) hh hp hl c)
  exact (run_next hfirst 1).trans (run_next hsecond 0)

/-! ### The laws of pack and unpack -/

/-- Packing what was unpacked drops the trailing incomplete group (41_pack_unpack.md R125 (c)). -/
theorem packBytes_unpackBits : ∀ bs : List Bit, packBytes (unpackBits bs) = bs.take (8 * (bs.length / 8))
  | b0 :: b1 :: b2 :: b3 :: b4 :: b5 :: b6 :: b7 :: bs => by
    have hlen : 8 * ((bs.length + 8) / 8) = 8 * (bs.length / 8) + 8 := by omega
    rw [unpackBits, packBytes, packByte_byteOfBits, packBytes_unpackBits bs]
    simp [hlen]
  | [] | [_] | [_, _] | [_, _, _] | [_, _, _, _] | [_, _, _, _, _] | [_, _, _, _, _, _] | [_, _, _, _, _, _, _] => by
    simp [unpackBits, packBytes]

/-- Whole groups are packed bytes. -/
theorem exists_packBytes_eq {bs : List Bit} (h : 8 ∣ bs.length) : ∃ ps, bs = packBytes ps := by
  refine ⟨unpackBits bs, ?_⟩
  rw [packBytes_unpackBits, Nat.mul_div_cancel' h, List.take_length]

theorem unpackBits_packBytes (ps : List Byte) : unpackBits (packBytes ps) = ps := by
  simpa [unpackBits] using unpackBits_packBytes_append ps []

/-- Unpacking goes group by group (41_pack_unpack.md R125 (e)). -/
theorem unpackBits_append {bs : List Bit} (cs : List Bit) (h : 8 ∣ bs.length) :
    unpackBits (bs ++ cs) = unpackBits bs ++ unpackBits cs := by
  obtain ⟨ps, rfl⟩ := exists_packBytes_eq h
  rw [unpackBits_packBytes_append, unpackBits_packBytes]

theorem unpackBits_of_short {ts : List Bit} (h : ts.length < 8) : unpackBits ts = [] := by
  rw [← List.length_eq_zero_iff, unpackBits_length, Nat.div_eq_of_lt h]

/-- Settles O48: packed bytes unpack to themselves whatever follows, and whole groups are packed bytes. -/
theorem lawsOfPackAndUnpack : Obligations.LawsOfPackAndUnpack := by
  refine ⟨unpackBits_packBytes, packBytes_length, unpackBits_length, packBytes_unpackBits, fun bs ts h hshort => ?_,
    fun bs cs h => unpackBits_append cs h⟩
  rw [unpackBits_append ts h, unpackBits_of_short hshort, List.append_nil]

end Sys2Proof.Machine
end

section
/-! Running commands: the turns they have left, what an empty schedule, quiet turns and a `wait` make of them, and that
they end where the whole command ends. -/

namespace Sys2Proof.Machine

/-! ### The block with other bookkeeping -/

/-- `s` with other turns to come, and other replies and draws made. -/
def State.book (s : State) (q : List Turn) (r : List Reply) (d : Nat) : State :=
  { s with schedule := q, replies := r, draws := d }

theorem eq_book_of_block {s u : State} (h : u.block = s.block) : u = s.book u.schedule u.replies u.draws :=
  eq_of_block h

theorem inRangeOf_book (c : Instr) (s : State) (q : List Turn) (r : List Reply) (d : Nat) :
    inRangeOf c (s.book q r d) = inRangeOf c s := by cases c <;> rfl

theorem overCapacityOf_book (c : Instr) (s : State) (q : List Turn) (r : List Reply) (d : Nat) :
    overCapacityOf c (s.book q r d) = overCapacityOf c s := by cases c <;> rfl

theorem startedState_book (c : Instr) (s : State) (q : List Turn) (r : List Reply) (d : Nat) :
    startedState c (s.book q r d) = (startedState c s).book q r d := by cases c <;> rfl

theorem finishStep_book (c : Instr) (s : State) (q : List Turn) (r : List Reply) (d : Nat) :
    finishStep c (s.book q r d) = (finishStep c s).book q r d := by cases c <;> rfl

/-- A command issue does not look at the bookkeeping. -/
theorem issue_encode_book (c : Instr) (s : State) (q : List Turn) (r : List Reply) (d : Nat) :
    issue (encode c) (s.book q r d) = (issue (encode c) s).book q r d := by
  rw [issue_encode, issue_encode, inRangeOf_book, overCapacityOf_book, startedState_book]
  split
  · rfl
  · split <;> rfl

/-- A body keeps STATUS and the bookkeeping, and looks at neither them nor IDX. -/
theorem bodyOf_book {c : Instr} {i : Nat} {s t : State} (x : Word) (q : List Turn) (r : List Reply) (d : Nat)
    (h : bodyOf c i s = some t) :
    bodyOf c i ({ s with idx := x }.book q r d) = some ({ t with idx := x }.book q r d) := by
  have hbody := bodyOf_aux c i s x s.status q r d
  rw [h] at hbody
  refine hbody.trans (congrArg some ?_)
  rw [bodyOf_frame h]
  rfl

/-- The sequencer does not look at the bookkeeping. -/
theorem sequencerTurn_book {s t : State} (q : List Turn) (r : List Reply) (d : Nat) (h : sequencerTurn s = .next t) :
    sequencerTurn (s.book q r d) = .next (t.book q r d) := by
  cases hb : s.busy
  case false =>
    obtain rfl := Host.Outcome.next.inj ((sequencerTurn_idle hb).symm.trans h)
    exact sequencerTurn_idle hb
  case true =>
    have hb' : (s.book q r d).busy = true := hb
    obtain ⟨c, hc, ⟨hi, u, hu, rfl⟩ | ⟨hi, rfl⟩⟩ := sequencerTurn_cases hb h
    · exact sequencerTurn_bit hb' hc hi (bodyOf_book s.idx q r d hu)
    · rw [sequencerTurn_finish hb' hc hi, finishStep_book]

theorem step_cons_book (s : State) (turn : Turn) (q : List Turn) (r : List Reply) (d : Nat) :
    step (s.book (turn :: q) r d) = takeTurn turn (s.book q r d) :=
  step_of_cons (s := s.book (turn :: q) r d) rfl

theorem step_sequencer_book {s t : State} (q : List Turn) (r : List Reply) (d : Nat) (h : sequencerTurn s = .next t) :
    step (s.book (.sequencer :: q) r d) = .next (t.book q r d) :=
  (step_cons_book s .sequencer q r d).trans (sequencerTurn_book q r d h)

theorem step_empty_book {s t : State} (r : List Reply) (d : Nat) (h : sequencerTurn s = .next t) :
    step (s.book [] r d) = .next (t.book [] r d) :=
  (step_of_empty rfl).trans (sequencerTurn_book [] r d h)

/-! ### What a running command has left -/

/-- `s` runs a command that has `n` bit steps and its finish step left, and these lead to `t`. -/
inductive Finishes : Nat → State → State → Prop
  | last {s t : State} (hs : s.status = 0x1#32) (h : sequencerTurn s = .next t) (ht : t.status = 0x2#32) :
      Finishes 0 s t
  | more {n : Nat} {s u t : State} (hs : s.status = 0x1#32) (h : sequencerTurn s = .next u) (hu : Finishes n u t) :
      Finishes (n + 1) s t

theorem Finishes.status {n : Nat} {s t : State} (h : Finishes n s t) : s.status = 0x1#32 := by
  cases h <;> assumption

theorem Finishes.busy {n : Nat} {s t : State} (h : Finishes n s t) : s.busy = true := busy_of_status h.status

theorem Finishes.end_status {n : Nat} {s t : State} (h : Finishes n s t) : t.status = 0x2#32 := by
  induction h with
  | last _ _ ht => exact ht
  | more _ _ _ ih => exact ih

theorem Finishes.end_idle {n : Nat} {s t : State} (h : Finishes n s t) : t.busy = false := busy_of_status h.end_status

/-- Left to itself the command takes those steps. -/
theorem Finishes.run_alone {n : Nat} {s t : State} (h : Finishes n s t) (r : List Reply) (d : Nat) :
    core.run (n + 1) (s.book [] r d) = .next (t.book [] r d) := by
  induction h with
  | last _ h _ => exact run_next (step_empty_book r d h) 0
  | more _ h _ ih => exact (run_next (step_empty_book r d h) _).trans ih

/-! ### From the invariant -/

/-- The sequencer's turn before the last index. -/
theorem Inv.sequencer_bit {s : State} (hv : Inv s) (hb : s.busy = true) (hi : s.idx.toNat < s.cnt.toNat) :
    ∃ t, sequencerTurn s = .next t ∧ Inv t ∧ t.busy = true ∧ t.cnt = s.cnt ∧ t.schedule = s.schedule ∧
      t.idx.toNat = s.idx.toNat + 1 := by
  obtain ⟨c, _, ⟨_, u, hu, ht⟩ | ⟨heq, _⟩⟩ := sequencerTurn_enabled hv hb
  · have hf := bodyOf_frame hu
    have hidx : (s.idx + 1#32).toNat = s.idx.toNat + 1 := by bv_omega
    exact ⟨_, ht, hv.after_bit hb hi hu, (congrArg State.busy hf).trans hb, (congrArg State.cnt hf :),
      (congrArg State.schedule hf :), hidx⟩
  · exact absurd (congrArg BitVec.toNat heq) (Nat.ne_of_lt hi)

/-- The sequencer's turn at the last index. -/
theorem Inv.sequencer_finish {s : State} (hv : Inv s) (hb : s.busy = true) (hi : s.idx.toNat = s.cnt.toNat) :
    ∃ t, sequencerTurn s = .next t ∧ t.status = 0x2#32 ∧ t.idx = s.cnt := by
  obtain ⟨c, _, ⟨hlt, _⟩ | ⟨heq, ht⟩⟩ := sequencerTurn_enabled hv hb
  · exact absurd hi (Nat.ne_of_lt hlt)
  · have hf := finishStep_frame c s (legalStatus_busy hv.statusLegal hb)
    exact ⟨_, ht, (congrArg State.status hf :), (congrArg State.idx hf).trans heq⟩

/-- A running command of a state that meets the invariant has a bit step left for each index from IDX to CNT. -/
theorem Inv.finishes {s : State} (hv : Inv s) (hb : s.busy = true) :
    ∃ t, Finishes (s.cnt.toNat - s.idx.toNat) s t ∧ t.idx = s.cnt := by
  have hle : s.idx.toNat ≤ s.cnt.toNat := by
    obtain ⟨-, -, -, -, -, hle⟩ := (latchesOk_iff s).1 (hv.running hb)
    exact hle
  have hs := legalStatus_busy hv.statusLegal hb
  induction hn : s.cnt.toNat - s.idx.toNat generalizing s with
  | zero =>
    obtain ⟨t, ht, hdone, hidx⟩ := hv.sequencer_finish hb (by omega)
    exact ⟨t, .last hs ht hdone, hidx⟩
  | succ n ih =>
    obtain ⟨u, hu, hvu, hbu, hcnt, -, hidx⟩ := hv.sequencer_bit hb (by omega)
    obtain ⟨t, ht, hend⟩ := ih hvu hbu (by rw [hcnt]; omega) (legalStatus_busy hvu.statusLegal hbu)
      (by rw [hcnt]; omega)
    exact ⟨t, .more hs hu ht, hend.trans hcnt⟩

/-- Bit steps of a command left to itself. -/
theorem Inv.run_bits {s : State} (hv : Inv s) (hb : s.busy = true) (hq : s.schedule = []) (k : Nat)
    (hk : s.idx.toNat + k ≤ s.cnt.toNat) :
    ∃ t, core.run k s = .next t ∧ t.busy = true ∧ t.idx.toNat = s.idx.toNat + k ∧ t.cnt = s.cnt := by
  induction k generalizing s with
  | zero => exact ⟨s, rfl, hb, rfl, rfl⟩
  | succ k ih =>
    obtain ⟨u, hu, hvu, hbu, hcnt, hqu, hidx⟩ := hv.sequencer_bit hb (by omega)
    obtain ⟨t, ht, hbt, hit, hct⟩ := ih hvu hbu (hqu.trans hq) (by rw [hidx, hcnt]; omega)
    exact ⟨t, (run_next ((step_of_empty hq).trans hu) k).trans ht, hbt, by omega, hct.trans hcnt⟩

theorem State.book_of_empty {s : State} (hq : s.schedule = []) : s.book [] s.replies s.draws = s :=
  congrArg (fun q => { s with schedule := q }) hq.symm

/-- Settles O20: bit steps up to any index, and all that is left with the finish step. -/
theorem runningCommandEndsAfterItsCount : Obligations.RunningCommandEndsAfterItsCount := by
  intro s hv hb hq
  refine ⟨hv.run_bits hb hq, ?_⟩
  obtain ⟨t, ht, hidx⟩ := hv.finishes hb
  have hrun := ht.run_alone s.replies s.draws
  rw [State.book_of_empty hq] at hrun
  exact ⟨_, hrun, ht.end_status, hidx⟩

/-! ### From the issue of a command -/

/-- The bodies leave STATUS and the latches as the issue set them. -/
theorem forEach_latches {c : Instr} {n : Nat} {s w : State} (h : forEach n (bodyOf c) (startedState c s) = some w) :
    w.status = 0x1#32 ∧ opcodeInstr w.op = some c ∧ w.cnt = BitVec.ofNat 32 (countOf c s) := by
  have hf := forEach_frame h
  have hop : w.op = opcodeOf c := congrArg State.op hf
  exact ⟨(congrArg State.status hf :), hop ▸ opcodeInstr_opcodeOf c, (congrArg State.cnt hf :)⟩

/-- The body of a command does not look at IDX. -/
theorem bodyOf_idx {c : Instr} {i : Nat} {s t : State} (x : Word) (h : bodyOf c i s = some t) :
    bodyOf c i { s with idx := x } = some { t with idx := x } := by
  have hbook := bodyOf_book x s.schedule s.replies s.draws h
  rw [bodyOf_frame h] at hbook ⊢
  exact hbook

/-- After `k` bodies of a command that started, fewer than its count, the sequencer does the next one. -/
theorem sequencerTurn_after_bodies {c : Instr} {s w : State} {k : Nat} (hc : s.capacitiesOk) (h : starts c s)
    (hk : k < countOf c s) (hw : forEach k (bodyOf c) (startedState c s) = some w) :
    ∃ v, forEach (k + 1) (bodyOf c) (startedState c s) = some v ∧
      sequencerTurn { w with idx := BitVec.ofNat 32 k } = .next { v with idx := BitVec.ofNat 32 (k + 1) } := by
  obtain ⟨hbit, hhost⟩ := countOf_le hc h.2.1 h.2.2
  obtain ⟨-, -, -, -, hfit⟩ := capacitiesOk_bounds hc
  obtain ⟨hs, hop, hcnt⟩ := forEach_latches hw
  obtain ⟨v, hv⟩ := forEach_isSome (c := c) (n := k + 1) (s := startedState c s) (hk.trans_le hbit : k < s.bitCap)
    fun hhas => (hk.trans_le (hhost hhas) : k < s.hostCap)
  have hbody : bodyOf c k w = some v := by simpa [forEach, hw] using hv
  have hidx : (BitVec.ofNat 32 k).toNat = k := toNat_count (by omega)
  have hlt : (BitVec.ofNat 32 k).toNat < w.cnt.toNat := by
    rw [hidx, hcnt, toNat_count (by omega)]
    exact hk
  have hnext : BitVec.ofNat 32 k + 1#32 = BitVec.ofNat 32 (k + 1) := by bv_omega
  have hbody' : bodyOf c (BitVec.ofNat 32 k).toNat { w with idx := BitVec.ofNat 32 k } =
      some { v with idx := BitVec.ofNat 32 k } := hidx.symm ▸ bodyOf_idx _ hbody
  have hturn := sequencerTurn_bit (s := { w with idx := BitVec.ofNat 32 k }) (busy_of_status hs) hop hlt hbody'
  exact ⟨v, hv, hnext ▸ hturn⟩

/-- After `k` bodies the sequencer has the other `m` bit steps left, and ends where the whole command ends. -/
theorem finishes_of_forEach {c : Instr} {s u : State} (hc : s.capacitiesOk) (h : starts c s)
    (hu : forEach (countOf c s) (bodyOf c) (startedState c s) = some u) {m k : Nat} (hm : k + m = countOf c s)
    {w : State} (hw : forEach k (bodyOf c) (startedState c s) = some w) :
    Finishes m { w with idx := BitVec.ofNat 32 k } (finishStep c { u with idx := u.cnt }) := by
  obtain ⟨hs, hop, hcnt⟩ := forEach_latches hw
  induction m generalizing k w with
  | zero =>
    obtain rfl : k = countOf c s := hm
    obtain rfl := Option.some.inj (hw.symm.trans hu)
    rw [← hcnt]
    exact .last hs (sequencerTurn_finish (busy_of_status hs) hop rfl)
      (congrArg State.status (finishStep_frame c { w with idx := w.cnt } hs) :)
  | succ m ih =>
    obtain ⟨v, hv, hturn⟩ := sequencerTurn_after_bodies hc h (by omega) hw
    obtain ⟨hs', hop', hcnt'⟩ := forEach_latches hv
    exact .more hs hturn (ih (by omega) hv hs' hop' hcnt')

/-- A command that starts has all its bit steps left, and ends where the whole command ends (40_sequencer.md R111). -/
theorem finishes_of_starts {c : Instr} {s : State} (hc : s.capacitiesOk) (h : starts c s) :
    ∃ v, exec c s = .next v ∧ Finishes (countOf c s) (startedState c s) v := by
  obtain ⟨u, hu, hexec⟩ := exec_starts_forEach hc h
  exact ⟨_, hexec, finishes_of_forEach hc h hu (Nat.zero_add _) rfl⟩

/-! ### Quiet turns -/

theorem quietTurn_congr {s t : State} (hcap : t.hcap = s.hcap ∧ t.pcap = s.pcap) (turn : Turn) :
    quietTurn t turn = quietTurn s turn := by
  cases turn with
  | host x => exact admitted_congr hcap x
  | sequencer | command | reset | wait | stopOnError => rfl

/-- A transaction while busy moves the bookkeeping alone. -/
theorem step_host_book {s : State} {x : Transaction} (hb : s.busy = true) (ha : admitted s x = true) (q : List Turn)
    (r : List Reply) (d : Nat) : ∃ r' d', step (s.book (.host x :: q) r d) = .next (s.book q r' d') := by
  have ha' : admitted (s.book q r d) x = true := (admitted_congr ⟨rfl, rfl⟩ x).trans ha
  obtain ⟨u, hu, hblock, hq⟩ := transact_busy_keeps (s := s.book q r d) hb ha'
  have heq : u = s.book u.schedule u.replies u.draws := eq_book_of_block hblock
  rw [show u.schedule = q from hq] at heq
  exact ⟨u.replies, u.draws, heq ▸ (step_cons_book s (.host x) q r d).trans hu⟩

/-- The steps a command has left, with transactions in between. -/
theorem Finishes.run_quiet {n : Nat} {s t : State} (h : Finishes n s t) {turns : List Turn}
    (hquiet : ∀ x ∈ turns, quietTurn s x = true) (hcount : turns.count .sequencer = n) (rest : List Turn)
    (r : List Reply) (d : Nat) : ∃ r' d',
      core.run (turns.length + 1) (s.book (turns ++ .sequencer :: rest) r d) = .next (t.book rest r' d') := by
  induction turns generalizing n s r d with
  | nil =>
    subst hcount
    cases h with
    | last _ h _ => exact ⟨r, d, run_next (step_sequencer_book rest r d h) 0⟩
  | cons x turns ih =>
    have htail : ∀ y ∈ turns, quietTurn s y = true := fun y hy => hquiet y (List.mem_cons_of_mem x hy)
    cases x with
    | sequencer =>
      rw [List.count_cons_self] at hcount
      subst hcount
      cases h with
      | more _ h hu =>
        obtain ⟨r', d', hrun⟩ := ih hu
          (fun y hy => (quietTurn_congr (TurnEffect.of_sequencerTurn h).caps y).trans (htail y hy)) rfl r d
        exact ⟨r', d', (run_next (step_sequencer_book _ r d h) _).trans hrun⟩
    | host x =>
      rw [List.count_cons_of_ne (by simp)] at hcount
      obtain ⟨r₁, d₁, hstep⟩ := step_host_book h.busy (hquiet (.host x) List.mem_cons_self)
        (turns ++ .sequencer :: rest) r d
      obtain ⟨r', d', hrun⟩ := ih h htail hcount r₁ d₁
      exact ⟨r', d', (run_next hstep _).trans hrun⟩
    | command | reset | wait | stopOnError => exact absurd (hquiet _ List.mem_cons_self) Bool.false_ne_true

theorem issue_of_starts {c : Instr} {s : State} (h : starts c s) : issue (encode c) s = startedState c s := by
  obtain ⟨-, hr, ho⟩ := h
  simp [issue_encode, hr, ho]

/-- Settles O21: the bit steps left at the issue, whatever quiet turns stand between them. -/
theorem stepwiseCommandEqualsWholeCommand : Obligations.StepwiseCommandEqualsWholeCommand := by
  intro c s turns rest hc h hquiet hcount
  obtain ⟨v, hexec, hfin⟩ := finishes_of_starts hc h
  obtain ⟨r, d, hrun⟩ := hfin.run_quiet (fun x hx => (quietTurn_congr ⟨rfl, rfl⟩ x).trans (hquiet x hx)) hcount rest
    s.replies s.draws
  rw [issue_of_starts h]
  exact ⟨v.book rest r d, v, hrun, hexec, rfl, rfl⟩

end Sys2Proof.Machine
end

section
/-! Scripts: `wait` at any pace, a command and its `wait`, and the pseudo-commands. -/

namespace Sys2Proof.Machine

/-! ### Runs of any length -/

/-- Some number of steps leads from `s` to `t`. -/
def Runs (s t : State) : Prop := ∃ k, core.run k s = .next t

theorem Runs.of_step {s t : State} (h : step s = .next t) : Runs s t := ⟨1, run_next h 0⟩

theorem Runs.trans {s t u : State} (h : Runs s t) (h' : Runs t u) : Runs s u := by
  obtain ⟨j, hj⟩ := h
  obtain ⟨k, hk⟩ := h'
  exact ⟨j + k, (run_add j k hj).trans hk⟩

/-! ### The polls of a `wait` -/

/-- A `wait` is some sequencer turns, at the end of the pace one, and a poll. -/
theorem scriptWait_eq (pace : List Nat) :
    scriptWait pace = List.replicate (pace.headD 1) .sequencer ++ [.wait pace.tail] := by
  cases pace <;> rfl

theorem step_poll_busy {s : State} (hs : s.status = 0x1#32) (gaps : List Nat) (q : List Turn) (r : List Reply)
    (d : Nat) :
    step (s.book (.wait gaps :: q) r d) = .next (s.book (scriptWait gaps ++ q) (.word 0x1#32 :: r) d) :=
  hs ▸ step_wait_busy (s := s.book (.wait gaps :: q) r d) (busy_of_status hs) rfl

theorem step_poll_idle {s : State} (hb : s.busy = false) (gaps : List Nat) (q : List Turn) (r : List Reply) (d : Nat) :
    step (s.book (.wait gaps :: q) r d) = .next (s.book q (.word s.status :: r) d) :=
  step_wait_idle (s := s.book (.wait gaps :: q) r d) hb rfl

/-- While idle the first poll ends a `wait`. -/
theorem runs_wait_idle {s : State} (hb : s.busy = false) (pace : List Nat) (q : List Turn) (r : List Reply) (d : Nat) :
    Runs (s.book (scriptWait pace ++ q) r d) (s.book q (.word s.status :: r) d) := by
  rw [scriptWait_eq, List.append_assoc]
  exact Runs.trans ⟨_, run_sequencers_idle (s := s.book q r d) hb (pace.headD 1) (.wait pace.tail :: q)⟩
    (.of_step (step_poll_idle hb pace.tail q r d))

/-- Sequencer turns in a row: the command still runs, or it has ended and the turns left over pass without effect. -/
theorem Finishes.run_sequencers {n : Nat} {s t : State} (h : Finishes n s t) (g : Nat) (q : List Turn) (r : List Reply)
    (d : Nat) :
    (∃ m u, m + g = n ∧ Finishes m u t ∧
      core.run g (s.book (List.replicate g .sequencer ++ q) r d) = .next (u.book q r d)) ∨
    (n < g ∧ core.run g (s.book (List.replicate g .sequencer ++ q) r d) = .next (t.book q r d)) := by
  induction g generalizing n s with
  | zero => exact .inl ⟨n, s, rfl, h, rfl⟩
  | succ g ih =>
    cases h with
    | last hs hturn ht =>
      refine .inr ⟨Nat.zero_lt_succ g, (run_next (step_sequencer_book _ r d hturn) g).trans ?_⟩
      exact run_sequencers_idle (s := t.book q r d) (busy_of_status ht) g q
    | more hs hturn hu =>
      have hfirst := run_next (step_sequencer_book (List.replicate g .sequencer ++ q) r d hturn) g
      rcases ih hu with ⟨m, u, hm, hu, hrun⟩ | ⟨hlt, hrun⟩
      · exact .inl ⟨m, u, by omega, hu, hfirst.trans hrun⟩
      · exact .inr ⟨by omega, hfirst.trans hrun⟩

/-- The replies of `n` polls that see BUSY and one that does not, newest first. -/
def polled (n : Nat) (r : List Reply) : List Reply := .word 0x2#32 :: (List.replicate n (.word 0x1#32) ++ r)

/-- One more poll that sees BUSY, before the others. -/
theorem polled_busy (n : Nat) (r : List Reply) : polled n (.word 0x1#32 :: r) = polled (n + 1) r := by
  rw [polled, polled, List.replicate_succ', List.append_assoc]
  rfl

/-- A `wait` on a running command ends, at any pace, in the state that command ends in: what is left of the pace and of
the command gets less from poll to poll. -/
theorem Finishes.runs_wait {n : Nat} {s t : State} (h : Finishes n s t) (pace : List Nat) (q : List Turn)
    (r : List Reply) (d : Nat) : ∃ m, Runs (s.book (scriptWait pace ++ q) r d) (t.book q (polled m r) d) := by
  induction hN : n + pace.length using Nat.strong_induction_on generalizing n s pace r with
  | _ N ih =>
    have hpolls := h.run_sequencers (pace.headD 1) (.wait pace.tail :: q) r d
    rw [scriptWait_eq, List.append_assoc]
    rcases hpolls with ⟨m, u, hm, hu, hrun⟩ | ⟨_, hrun⟩
    · have hless : m + pace.tail.length < N := by
        subst hN
        cases pace with
        | nil => exact Nat.lt_of_succ_le hm.le
        | cons g gaps => exact Nat.add_lt_add_of_le_of_lt (by omega) (Nat.lt_succ_self _)
      obtain ⟨k, hk⟩ := ih _ hless hu pace.tail (.word 0x1#32 :: r) rfl
      rw [polled_busy] at hk
      exact ⟨k + 1, Runs.trans ⟨_, hrun⟩ ((Runs.of_step (step_poll_busy hu.status pace.tail q r d)).trans hk)⟩
    · have hlast := Runs.of_step (step_poll_idle h.end_idle pace.tail q r d)
      rw [h.end_status] at hlast
      exact ⟨0, Runs.trans ⟨_, hrun⟩ hlast⟩

/-- A pace whose first `k` polls leave the sequencer no turn, and whose next one leaves it all it needs, sees BUSY `k`
times. -/
theorem Finishes.runs_wait_exactly {n : Nat} {s t : State} (h : Finishes n s t) (k : Nat) (q : List Turn)
    (r : List Reply) (d : Nat) :
    Runs (s.book (scriptWait (List.replicate k 0 ++ [n + 1]) ++ q) r d) (t.book q (polled k r) d) := by
  induction k generalizing r with
  | zero =>
    have hlast := Runs.of_step (step_poll_idle h.end_idle [] q r d)
    rw [h.end_status] at hlast
    rcases h.run_sequencers (n + 1) (.wait [] :: q) r d with ⟨m, _, hm, _⟩ | ⟨_, hrun⟩
    · exact absurd hm (by omega)
    · have hscript : scriptWait (List.replicate 0 0 ++ [n + 1]) ++ q =
          List.replicate (n + 1) .sequencer ++ .wait [] :: q := by simp
      rw [hscript]
      exact Runs.trans ⟨_, hrun⟩ hlast
  | succ k ih =>
    rw [← polled_busy]
    exact (Runs.of_step (step_poll_busy h.status (List.replicate k 0 ++ [n + 1]) q r d)).trans (ih (.word 0x1#32 :: r))

/-- Settles O55: the idle poll, the command left to itself, and its `wait` at any pace and at the pace of `n` polls. -/
theorem waitEndsAtFirstIdlePoll : Obligations.WaitEndsAtFirstIdlePoll := by
  intro s rest hv
  refine ⟨fun hb pace => runs_wait_idle hb pace rest s.replies s.draws, fun hb => ?_⟩
  obtain ⟨t, ht, _⟩ := hv.finishes hb
  refine ⟨_, t.book [] s.replies s.draws, ht.run_alone s.replies s.draws, ht.end_status, fun pace => ?_, fun n => ?_⟩
  · obtain ⟨n, k, hrun⟩ := ht.runs_wait pace rest s.replies s.draws
    exact ⟨k, n, hrun⟩
  · exact ⟨_, ht.runs_wait_exactly n rest s.replies s.draws⟩

end Sys2Proof.Machine
end

section
/-! The pseudo-commands, line by line, at any pace of their `wait` lines. -/

namespace Sys2Proof.Machine

/-! ### A command and its `wait` -/

/-- What the issue of a command has to do with the whole command: it fails alike, or it starts and ends where the whole
command ends. -/
theorem issue_of_exec {c : Instr} {s v : State} (hc : s.capacitiesOk) (hb : s.busy = false) (h : exec c s = .next v) :
    (v.busy = false ∧ issue (encode c) s = v) ∨
      ∃ n, Finishes n (issue (encode c) s) v := by
  by_cases hs : starts c s
  · obtain ⟨u, hu, hfin⟩ := finishes_of_starts hc hs
    obtain rfl := Host.Outcome.next.inj (hu.symm.trans h)
    exact .inr ⟨_, (issue_of_starts hs).symm ▸ hfin⟩
  · have hi : (issue (encode c) s).busy = false := by
      rcases issue_cases (encode c) s with ⟨e, he⟩ | ⟨d, hd, hr, ho, _⟩
      · exact he ▸ failedState_idle _ e s
      · obtain rfl := Except.ok.inj ((decode_encode c).symm.trans hd)
        exact absurd ⟨hb, hr, ho⟩ hs
    have hturn := (commandTurn_of_decode s (decode_encode c)).symm.trans (commandTurn_of_issue_idle hb hi)
    obtain rfl := Host.Outcome.next.inj (hturn.symm.trans h)
    exact .inl ⟨hi, rfl⟩

/-- A run may start from any name of its first state. -/
theorem Runs.of_schedule {s t : State} {q : List Turn} (hq : s.schedule = q) (h : Runs (s.book q s.replies s.draws) t) :
    Runs s t := by
  subst hq
  exact h

theorem step_cmd_book {s : State} (c : Instr) (hb : s.busy = false) (q : List Turn) (r : List Reply) (d : Nat) :
    step (s.book (scriptCmd c ++ q) r d) = .next ((issue (encode c) s).book q r d) := by
  rw [← issue_encode_book]
  exact step_cmd (s := s.book (scriptCmd c ++ q) r d) hb rfl

/-- `cmd M` and a `wait` at any pace, while idle: the whole command, and polls of which the last one reads the STATUS it
left. -/
theorem runs_cmd_wait {c : Instr} {s v : State} (hc : s.capacitiesOk) (hb : s.busy = false) (h : exec c s = .next v)
    (pace : List Nat) (q : List Turn) (r : List Reply) (d : Nat) :
    ∃ r', Runs (s.book (scriptCmd c ++ (scriptWait pace ++ q)) r d) (v.book q (.word v.status :: r') d) := by
  have hissue := Runs.of_step (step_cmd_book c hb (scriptWait pace ++ q) r d)
  rcases issue_of_exec hc hb h with ⟨hv, hi⟩ | ⟨n, hfin⟩
  · rw [hi] at hissue
    exact ⟨_, hissue.trans (runs_wait_idle hv pace q r d)⟩
  · obtain ⟨m, hwait⟩ := hfin.runs_wait pace q r d
    rw [hfin.end_status]
    exact ⟨_, hissue.trans hwait⟩

/-- The same with `rd STATUS ; stop if ERR` behind it. -/
theorem runs_cmd_wait_unlessError {c : Instr} {s v : State} (hc : s.capacitiesOk) (hb : s.busy = false)
    (h : exec c s = .next v) (pace : List Nat) (tail q : List Turn) (r : List Reply) (d : Nat) :
    ∃ r', Runs (s.book (scriptCmd c ++ (scriptWait pace ++ (scriptUnlessError tail ++ q))) r d)
      (v.book (if v.err then q else tail ++ q) (.word v.status :: r') d) := by
  obtain ⟨r', hrun⟩ := runs_cmd_wait hc hb h pace (scriptUnlessError tail ++ q) r d
  exact ⟨_, hrun.trans (.of_step (step_unlessError (s := v.book _ _ d) rfl))⟩

/-- A command that ends without error lets the lines behind it go on. -/
theorem runs_cmd_goes_on {c : Instr} {s v : State} (hc : s.capacitiesOk) (hb : s.busy = false) (h : exec c s = .next v)
    (hv : v.status = 0x2#32) (pace : List Nat) (tail q : List Turn) (r : List Reply) (d : Nat) :
    ∃ r', Runs (s.book (scriptCmd c ++ (scriptWait pace ++ (scriptUnlessError tail ++ q))) r d)
      (v.book (tail ++ q) r' d) := by
  obtain ⟨r', hrun⟩ := runs_cmd_wait_unlessError hc hb h pace tail q r d
  rw [err_of_status hv] at hrun
  exact ⟨_, hrun⟩

/-- A command whose operands are out of range stops the lines behind it. -/
theorem runs_cmd_stops {c : Instr} {s : State} (hc : s.capacitiesOk) (hb : s.busy = false) (hr : inRangeOf c s = false)
    (pace : List Nat) (tail q : List Turn) (r : List Reply) (d : Nat) :
    ∃ r', Runs (s.book (scriptCmd c ++ (scriptWait pace ++ (scriptUnlessError tail ++ q))) r d)
      ((failedState (encode c) .bounds s).book q (.word 0x36#32 :: r') d) := by
  have herr : (failedState (encode c) .bounds s).err = true := err_of_status (st := 0x36#32) rfl
  obtain ⟨r', hrun⟩ := runs_cmd_wait_unlessError hc hb (exec_outOfRange hb hr) pace tail q r d
  rw [if_pos herr] at hrun
  exact ⟨r', hrun⟩

/-! ### PACK and UNPACK in scripts -/

/-- The end state of a PACK that starts, with `m` in BIT. -/
def State.packedWith (s : State) (m : Memory 1) : State :=
  { s with
    bits := m, blen := BitVec.ofNat 32 (8 * s.plen.toNat), cmd := 0x1#32, status := 0x2#32
    idx := BitVec.ofNat 32 (8 * s.plen.toNat), op := 1#8, cnt := BitVec.ofNat 32 (8 * s.plen.toNat) }

theorem packedWith_idle (s : State) (m : Memory 1) : (s.packedWith m).busy = false :=
  busy_of_status (st := 0x2#32) rfl

theorem exec_pack_packedWith {s : State} (hc : s.capacitiesOk) (hb : s.busy = false) (hp : s.plen.toNat ≤ s.payCap) :
    ∃ m, exec .pack s = .next (s.packedWith m) ∧ (s.packedWith m).blen.toNat = 8 * s.plen.toNat ∧
      (s.packedWith m).bitRange (8 * s.plen.toNat) = packBytes (s.payRange s.plen.toNat) := by
  obtain ⟨v, hexec, hv, hblen, hbits, -, -⟩ := (packPacksPayload s hc hb).1 hp
  obtain ⟨m, rfl⟩ : ∃ m, v = s.packedWith m := ⟨v.bits, hv⟩
  exact ⟨m, hexec, hblen, hbits⟩

/-- `cmd UNPACK` and a `wait`, as the lines that end a script, after a command that left `n` bits: what the end state
keeps and what it holds. -/
theorem runs_unpack_wait {s : State} {n : Nat} (hc : s.capacitiesOk) (hb : s.busy = false) (hn : s.blen.toNat = n)
    (hl : n ≤ s.bitCap) (pace : List Nat) (q : List Turn) (r : List Reply) (d : Nat) :
    ∃ t, Runs (s.book (scriptCmd .unpack ++ (scriptWait pace ++ q)) r d) t ∧ t.schedule = q ∧ t.status = 0x2#32 ∧
      ((∀ a, t.hostAt a = s.hostAt a) ∧ (∀ k, t.bitRange k = s.bitRange k) ∧ t.blen = s.blen ∧ t.limit = s.limit) ∧
      t.plen.toNat = n / 8 ∧ t.payRange (n / 8) = unpackBits (s.bitRange n) ∧
      ∀ a, n / 8 ≤ a → t.payAt a = s.payAt a := by
  subst hn
  obtain ⟨v, hexec, hv, hplen, hpay, -, habove⟩ := (unpackUnpacksBits s hc hb).1 hl
  obtain ⟨r', hrun⟩ := runs_cmd_wait hc hb hexec pace q r d
  refine ⟨_, hrun, rfl, (congrArg State.status hv :), ⟨fun a => ?_, fun k => ?_,
    (congrArg State.blen hv :), (congrArg State.limit hv :)⟩, hplen, hpay, habove⟩
  · rw [hv]
    rfl
  · rw [hv]
    rfl

theorem payAt_of_payRange_eq {s t : State} {n a : Nat} (h : t.payRange n = s.payRange n) (ha : a < n) :
    t.payAt a = s.payAt a :=
  List.map_inj_left.1 h a (List.mem_range.2 ha)

/-- Settles O51: PACK leaves what UNPACK turns back into the payload, and both keep the cells above it. -/
theorem packThenUnpackRestoresPayload : Obligations.PackThenUnpackRestoresPayload := by
  intro s p q rest hv hb hp hq
  obtain ⟨m, hexec, hblen, hbits⟩ := exec_pack_packedWith hv.capacities hb hp
  obtain ⟨r, hpack⟩ := runs_cmd_wait hv.capacities hb hexec p (scriptCmd .unpack ++ (scriptWait q ++ rest)) s.replies
    s.draws
  obtain ⟨t, hunpack, htq, hts, ⟨-, -, htblen, -⟩, htplen, htpay, habove⟩ :=
    runs_unpack_wait (s := s.packedWith m) hv.capacities (packedWith_idle s m) hblen (Nat.mul_le_mul_left 8 hp) q rest
      (.word 0x2#32 :: r) s.draws
  rw [Nat.mul_div_cancel_left _ (by decide)] at htplen htpay habove
  rw [hbits, unpackBits_packBytes] at htpay
  obtain ⟨k, hrun⟩ := (hpack.trans hunpack).of_schedule (by simpa only [List.append_assoc] using hq)
  refine ⟨k, t, hrun, htq, hts, BitVec.eq_of_toNat_eq htplen, (congrArg BitVec.toNat htblen).trans hblen, fun a => ?_⟩
  rcases Nat.lt_or_ge a s.plen.toNat with ha | ha
  · exact payAt_of_payRange_eq htpay ha
  · exact habove a ha

/-! ### EMBED -/

theorem scriptEmbed_append (p q : List Nat) (rest : List Turn) :
    scriptEmbed p q ++ rest = scriptCmd .pack ++
      (scriptWait p ++ (scriptUnlessError (scriptCmd .inject ++ (scriptWait q ++ scriptRd 1)) ++ rest)) := by
  simp only [scriptEmbed, List.append_assoc]

/-- EMBED, when PACK starts: INJECT runs on the bits packed, and its STATUS is read, whatever it ends with. -/
theorem runs_embed {s : State} {p q : List Nat} {rest : List Turn} (hc : s.capacitiesOk) (hb : s.busy = false)
    (hp : s.plen.toNat ≤ s.payCap) (hq : s.schedule = scriptEmbed p q ++ rest) :
    ∃ m, (s.packedWith m).blen.toNat = 8 * s.plen.toNat ∧
      (s.packedWith m).bitRange (8 * s.plen.toNat) = packBytes (s.payRange s.plen.toNat) ∧
      ∀ v, exec .inject (s.packedWith m) = .next v → v.busy = false →
        ∃ r, Runs s (v.book rest (.word v.status :: r) s.draws) := by
  obtain ⟨m, hpack, hblen, hbits⟩ := exec_pack_packedWith hc hb hp
  refine ⟨m, hblen, hbits, fun v hinject hv => ?_⟩
  obtain ⟨r, hfirst⟩ := runs_cmd_goes_on hc hb hpack rfl p (scriptCmd .inject ++ (scriptWait q ++ scriptRd 1)) rest
    s.replies s.draws
  rw [List.append_assoc, List.append_assoc] at hfirst
  obtain ⟨r', hsecond⟩ := runs_cmd_wait (s := s.packedWith m) hc (packedWith_idle s m) hinject q (scriptRd 1 ++ rest) r
    s.draws
  have hread := Runs.of_step (step_rdStatus (s := v.book (scriptRd 1 ++ rest) (.word v.status :: r') s.draws) hv rfl)
  exact ⟨_, ((hfirst.trans hsecond).trans hread).of_schedule (hq.trans (scriptEmbed_append p q rest))⟩

/-- Settles O52: PACK's error stops EMBED; otherwise INJECT runs on the packed bits, with one of its three outcomes. -/
theorem embedInjectsThePackedPayload : Obligations.EmbedInjectsThePackedPayload := by
  intro s p q rest hv hb hq
  have hc := hv.capacities
  have fits (hp : s.plen.toNat ≤ s.payCap) : 8 * s.plen.toNat ≤ s.bitCap := Nat.mul_le_mul_left 8 hp
  refine ⟨fun hp hh hcap => ?_, fun hp => ?_, fun hp hh hcap => ?_, fun hp hh => ?_⟩
  · obtain ⟨m, hblen, hbits, hruns⟩ := runs_embed hc hb hp hq
    obtain ⟨v, hexec, hvs, hinject, -, -⟩ := (injectOverwritesLsbs (s.packedWith m) (packedWith_idle s m)).1
      (hblen.trans_le hcap) hh (hblen.trans_le (fits hp))
    obtain ⟨host, rfl⟩ : ∃ host, v = { s.packedWith m with
      host := host, cmd := 0x3#32, status := 0x2#32, idx := (s.packedWith m).blen, op := 3#8
      cnt := (s.packedWith m).blen } := ⟨v.host, hvs⟩
    obtain ⟨r, k, hrun⟩ := hruns _ hexec (busy_of_status (st := 0x2#32) rfl)
    rw [hblen, hbits] at hinject
    exact ⟨k, _, hrun, rfl, rfl, rfl, hinject, hbits, hblen, fun _ => rfl, rfl, rfl⟩
  · obtain ⟨r, hrun⟩ := runs_cmd_stops (c := .pack) hc hb (decide_eq_false (Nat.not_le.2 hp)) p
      (scriptCmd .inject ++ (scriptWait q ++ scriptRd 1)) rest s.replies s.draws
    obtain ⟨k, hrun⟩ := hrun.of_schedule (hq.trans (scriptEmbed_append p q rest))
    exact ⟨k, _, hrun, rfl, rfl, rfl⟩
  · obtain ⟨m, hblen, hbits, hruns⟩ := runs_embed hc hb hp hq
    have hexec := (injectOverwritesLsbs (s.packedWith m) (packedWith_idle s m)).2.2 (hblen.trans_le (fits hp)) hh
      (hcap.trans_eq hblen.symm)
    obtain ⟨r, k, hrun⟩ := hruns _ hexec (busy_of_status (st := 0x16#32) rfl)
    exact ⟨k, _, hrun, rfl, rfl, rfl, fun _ => rfl, hbits, hblen⟩
  · obtain ⟨m, hblen, hbits, hruns⟩ := runs_embed hc hb hp hq
    have hexec := (injectOverwritesLsbs (s.packedWith m) (packedWith_idle s m)).2.1 (.inr hh)
    obtain ⟨r, k, hrun⟩ := hruns _ hexec (busy_of_status (st := 0x36#32) rfl)
    exact ⟨k, _, hrun, rfl, rfl, rfl, fun _ => rfl, hbits, hblen⟩

/-! ### RECOVER and RECOVERN -/

/-- The lines both scripts have: an extraction, the stop after its error, and UNPACK. -/
def scriptExtractUnpack (c : Instr) (p q : List Nat) (rest : List Turn) : List Turn :=
  scriptCmd c ++ (scriptWait p ++ (scriptUnlessError (scriptCmd .unpack ++ scriptWait q) ++ rest))

theorem scriptRecover_append (p q : List Nat) (rest : List Turn) :
    scriptRecover p q ++ rest = scriptExtractUnpack .extract p q rest := by
  simp only [scriptRecover, scriptExtractUnpack, List.append_assoc]

theorem scriptRecoverN_append (n : Word) (p q : List Nat) (rest : List Turn) :
    scriptRecoverN n p q ++ rest = .host (.regWrite 5 n) :: scriptExtractUnpack .extractl p q rest := by
  simp only [scriptRecoverN, scriptWr, scriptExtractUnpack, List.append_assoc, List.cons_append, List.nil_append]

/-- An extraction of `n` bits that ends without error, and the UNPACK behind it. -/
theorem runs_extractUnpack {c : Instr} {s v : State} {n : Nat} (hc : s.capacitiesOk) (hb : s.busy = false)
    (h : exec c s = .next v) (hcv : v.capacitiesOk) (hv : v.status = 0x2#32) (hn : v.blen.toNat = n) (hl : n ≤ v.bitCap)
    (p q : List Nat) (rest : List Turn) (r : List Reply) (d : Nat) :
    ∃ t, Runs (s.book (scriptExtractUnpack c p q rest) r d) t ∧ t.schedule = rest ∧ t.status = 0x2#32 ∧
      ((∀ a, t.hostAt a = v.hostAt a) ∧ (∀ k, t.bitRange k = v.bitRange k) ∧ t.blen = v.blen ∧ t.limit = v.limit) ∧
      t.plen.toNat = n / 8 ∧ t.payRange (n / 8) = unpackBits (v.bitRange n) := by
  obtain ⟨r', hextract⟩ := runs_cmd_goes_on hc hb h hv p (scriptCmd .unpack ++ scriptWait q) rest r d
  obtain ⟨t, hunpack, hq, hs, hkept, hplen, hpay, -⟩ := runs_unpack_wait hcv (busy_of_status hv) hn hl q rest r' d
  rw [List.append_assoc] at hextract
  exact ⟨t, hextract.trans hunpack, hq, hs, hkept, hplen, hpay⟩

/-- Settles O53: EXTRACT leaves the bits that UNPACK turns into bytes, or its BoundsError ends RECOVER. -/
theorem recoverUnpacksEveryLsb : Obligations.RecoverUnpacksEveryLsb := by
  intro s p q rest hv hb hq
  have hc := hv.capacities
  obtain ⟨-, -, -, hhost, -⟩ := capacitiesOk_bounds hc
  rw [scriptRecover_append] at hq
  refine ⟨fun hh => ?_, fun hh => ?_⟩
  · obtain ⟨v, hexec, hvs, hbits, -, -⟩ := (extractReadsEveryLsb s hc hb).1 hh
    obtain ⟨m, rfl⟩ : ∃ m, v = { s with
      bits := m, blen := s.hlen, cmd := 0x4#32, status := 0x2#32, idx := s.hlen, op := 4#8, cnt := s.hlen } :=
      ⟨v.bits, hvs⟩
    obtain ⟨t, hrun, htq, hts, ⟨hthost, htbits, htblen, -⟩, hplen, hpay⟩ := runs_extractUnpack hc hb hexec hc rfl rfl
      (hh.trans hhost) p q rest s.replies s.draws
    obtain ⟨k, hrun⟩ := hrun.of_schedule hq
    exact ⟨k, t, _, hrun, htq, hts, hbits, htbits _, htblen, hpay, hplen, hthost⟩
  · obtain ⟨r, hrun⟩ := runs_cmd_stops (c := .extract) hc hb (decide_eq_false (Nat.not_le.2 hh)) p
      (scriptCmd .unpack ++ scriptWait q) rest s.replies s.draws
    obtain ⟨k, hrun⟩ := hrun.of_schedule hq
    exact ⟨k, _, hrun, rfl, rfl⟩

/-- `wr LIMIT, n` while idle. -/
theorem step_wrLimit {s : State} {n : Word} {rest : List Turn} (hb : s.busy = false)
    (hq : s.schedule = .host (.regWrite 5 n) :: rest) :
    step s = .next (State.book { s with limit := n } rest s.replies s.draws) :=
  (step_of_cons hq).trans (transact_regWrite_idle (s := { s with schedule := rest }) n hb (by decide))

/-- What was injected is what as many bits extracted unpack to (43_extract.md R169 (b)). -/
theorem unpackBits_of_injected {hs gs : List Byte} {ps : List Byte} {bs : List Bit}
    (h : injectBits hs (packBytes ps) = some gs) (hbs : extractBits gs (8 * ps.length) = some bs) :
    unpackBits bs = ps := by
  obtain ⟨hbounded, -⟩ := extractBits_of_injectBits h
  rw [packBytes_length, hbs] at hbounded
  rw [Option.some.inj hbounded, unpackBits_packBytes]

/-- Settles O54: the bound is stored, then as RECOVER with EXTRACTL; a payload that fills the bound comes back. -/
theorem recoverNIsTheExactRoundTrip : Obligations.RecoverNIsTheExactRoundTrip := by
  intro s n p q rest hv hb hq
  have hc := hv.capacities
  obtain ⟨-, -, -, hhost, -⟩ := capacitiesOk_bounds hc
  rw [scriptRecoverN_append] at hq
  have hlimit := Runs.of_step (step_wrLimit hb hq)
  refine ⟨fun hh => ?_, fun hh => ?_⟩
  · obtain ⟨v, m, hm, hexec, hvs, hblen, hbits, -, -⟩ := (extractlReadsABoundedPrefix { s with limit := n } hc hb).1 hh
    have hfits : m ≤ s.bitCap := by
      rw [hm]
      exact (Nat.min_le_left _ _).trans (hh.trans hhost)
    obtain ⟨bits, rfl⟩ : ∃ bits, v = { s with
      limit := n, bits := bits, blen := BitVec.ofNat 32 m, cmd := 0x5#32, status := 0x2#32, idx := BitVec.ofNat 32 m
      op := 5#8, cnt := BitVec.ofNat 32 m } := ⟨v.bits, hvs⟩
    obtain ⟨t, hrun, htq, hts, ⟨hthost, htbits, htblen, htlimit⟩, hplen, hpay⟩ :=
      runs_extractUnpack (s := { s with limit := n }) hc hb hexec hc rfl hblen hfits p q rest s.replies s.draws
    obtain ⟨k, hrun⟩ := hlimit.trans hrun
    refine ⟨k, t, m, _, hm, hrun, htq, hts, htlimit, hbits, htbits m, (congrArg BitVec.toNat htblen).trans hblen, hpay,
      hplen, hthost, fun hs ps hn hle hinject => ?_⟩
    have hlen : m = 8 * ps.length := by
      rw [hm]
      exact (congrArg (min s.hlen.toNat) hn).trans (Nat.min_eq_right hle)
    rw [hplen, hpay]
    subst hlen
    exact unpackBits_of_injected hinject hbits
  · obtain ⟨r, hrun⟩ := runs_cmd_stops (c := .extractl) (s := { s with limit := n }) hc hb
      (decide_eq_false (Nat.not_le.2 hh)) p (scriptCmd .unpack ++ scriptWait q) rest s.replies s.draws
    obtain ⟨k, hrun⟩ := hlimit.trans hrun
    exact ⟨k, _, hrun, rfl, rfl⟩

end Sys2Proof.Machine
end
